-- ==== Sys2Proof/Word.lean ====
section
/-! DEFINITION. The words of the machine and the names its instructions are made of. -/

namespace Sys2Proof

/-- A register word of the field bus, 16 bits (00_scope.md R4, `WORD`). -/
abbrev Word := BitVec 16

/-- A byte of a register word, labelled A to H in transmission order (00_scope.md R6). -/
abbrev Byte := BitVec 8

/-- The fields of the `CMD` word other than the tag (30_encoding.md R45 to R47, 10_state.md R14).
`BITPOS` and `COUNT` are the unsigned integers the fields denote (R46); `WellFormed` bounds them.
DESIGN CHOICE, log 10. -/
structure CmdFields where
  /-- `BITPOS`, the bit position, consulted by CVT.BOOL only. -/
  bitpos : Nat
  /-- `COUNT`, the length of the register sequence in words. -/
  count : Nat
  /-- `RP`: the register sequence is present. -/
  rp : Bool
  /-- `DP`: the result slot is present. -/
  dp : Bool
  /-- `CMD[31:26]`: stored, read back, without effect (30_encoding.md R47). -/
  reserved : BitVec 6
  deriving DecidableEq, Repr

/-- The byte orders of the 16-bit types (30_encoding.md R49). -/
inductive Pat16 where
  | ab | ba
  deriving DecidableEq, Repr

/-- The byte orders of the 32-bit types, in the order of their indices `P` (30_encoding.md R49). -/
inductive Pat32 where
  | abcd | dcba | badc | cdab
  deriving DecidableEq, Repr

/-- The byte orders of the 64-bit types, in the order of their indices `P` (30_encoding.md R49). -/
inductive Pat64 where
  | abcdefgh | hgfedcba | badcfehg | cdabghef | dcbahgfe | ghefcdab | fehgbadc | efghabcd
  deriving DecidableEq, Repr

end Sys2Proof
end

