-- ==== Sys2Proof/Config.lean ====
section
/-! DEFINITION. The values the spec leaves open and lets differ between two identical commands.
They have no body: nothing can be proved of what they are. The parameter F64_EXCLUDED_PAT stands in
`State` (log 4); PERM64 is the by-name table in Machine/Operands.lean (log 5). -/

namespace Sys2Proof.Config

/-- NONFINITE_INT (45_scaling_numerics.md R145, 92_eei_decisions.md D17): the bits an integer command
returns when its product is a NaN or an infinity; an N-bit member takes the low N bits. The argument
is the number of the draw. DESIGN CHOICE (log 3): one draw a completed command; safe. -/
opaque nonfiniteInt : Nat → BitVec 64

/-- NAN_RESULT (45_scaling_numerics.md R147, 92_eei_decisions.md D18): the sign and the remaining
fraction bits of a quiet NaN result; the other bits are forced where the draw is used. The argument
is the number of the draw. DESIGN CHOICE (log 3): one draw a completed command; safe. -/
opaque nanResult : Nat → BitVec 64

end Sys2Proof.Config
end

