-- ==== Sys2Proof/Syntax.lean ====
section
/-! DEFINITION. The instruction set: one constructor for each row of spec/opcode_table.json
(30_encoding.md R50). An instruction is the value written to `CMD` (R45); its explicit operands are
the fields of that word (R46), its register operands are implicit. -/

namespace Sys2Proof

/-- The 43 conversion commands, one for each valid Data Type tag of 30_encoding.md R50. -/
inductive Instr where
  /-- `CVT.BOOL` (boolean), tag 0x00, rule R80. -/
  | cvtBOOL (f : CmdFields)
  /-- `CVT.U8` (int8-unsigned), tag 0x20, rule R81. -/
  | cvtU8 (f : CmdFields)
  /-- `CVT.S8` (int8-signed), tag 0x28, rule R82. -/
  | cvtS8 (f : CmdFields)
  /-- `CVT.U16.AB` (int16-unsigned-AB), tag 0x40, rule R84. -/
  | cvtU16AB (f : CmdFields)
  /-- `CVT.U16.BA` (int16-unsigned-BA), tag 0x41, rule R85. -/
  | cvtU16BA (f : CmdFields)
  /-- `CVT.S16.AB` (int16-signed-AB), tag 0x48, rule R86. -/
  | cvtS16AB (f : CmdFields)
  /-- `CVT.S16.BA` (int16-signed-BA), tag 0x49, rule R87. -/
  | cvtS16BA (f : CmdFields)
  /-- `CVT.U32.ABCD` (int32-unsigned-ABCD), tag 0x60, rule R91. -/
  | cvtU32ABCD (f : CmdFields)
  /-- `CVT.U32.DCBA` (int32-unsigned-DCBA), tag 0x61, rule R92. -/
  | cvtU32DCBA (f : CmdFields)
  /-- `CVT.U32.BADC` (int32-unsigned-BADC), tag 0x62, rule R93. -/
  | cvtU32BADC (f : CmdFields)
  /-- `CVT.U32.CDAB` (int32-unsigned-CDAB), tag 0x63, rule R94. -/
  | cvtU32CDAB (f : CmdFields)
  /-- `CVT.S32.ABCD` (int32-signed-ABCD), tag 0x68, rule R95. -/
  | cvtS32ABCD (f : CmdFields)
  /-- `CVT.S32.DCBA` (int32-signed-DCBA), tag 0x69, rule R96. -/
  | cvtS32DCBA (f : CmdFields)
  /-- `CVT.S32.BADC` (int32-signed-BADC), tag 0x6A, rule R97. -/
  | cvtS32BADC (f : CmdFields)
  /-- `CVT.S32.CDAB` (int32-signed-CDAB), tag 0x6B, rule R98. -/
  | cvtS32CDAB (f : CmdFields)
  /-- `CVT.F32.ABCD` (float32-ABCD), tag 0x70, rule R121. -/
  | cvtF32ABCD (f : CmdFields)
  /-- `CVT.F32.DCBA` (float32-DCBA), tag 0x71, rule R122. -/
  | cvtF32DCBA (f : CmdFields)
  /-- `CVT.F32.BADC` (float32-BADC), tag 0x72, rule R123. -/
  | cvtF32BADC (f : CmdFields)
  /-- `CVT.F32.CDAB` (float32-CDAB), tag 0x73, rule R124. -/
  | cvtF32CDAB (f : CmdFields)
  /-- `CVT.U64.ABCDEFGH` (int64-unsigned-ABCDEFGH), tag 0x80, rule R102. -/
  | cvtU64ABCDEFGH (f : CmdFields)
  /-- `CVT.U64.HGFEDCBA` (int64-unsigned-HGFEDCBA), tag 0x81, rule R103. -/
  | cvtU64HGFEDCBA (f : CmdFields)
  /-- `CVT.U64.BADCFEHG` (int64-unsigned-BADCFEHG), tag 0x82, rule R104. -/
  | cvtU64BADCFEHG (f : CmdFields)
  /-- `CVT.U64.CDABGHEF` (int64-unsigned-CDABGHEF), tag 0x83, rule R105. -/
  | cvtU64CDABGHEF (f : CmdFields)
  /-- `CVT.U64.DCBAHGFE` (int64-unsigned-DCBAHGFE), tag 0x84, rule R106. -/
  | cvtU64DCBAHGFE (f : CmdFields)
  /-- `CVT.U64.GHEFCDAB` (int64-unsigned-GHEFCDAB), tag 0x85, rule R107. -/
  | cvtU64GHEFCDAB (f : CmdFields)
  /-- `CVT.U64.FEHGBADC` (int64-unsigned-FEHGBADC), tag 0x86, rule R108. -/
  | cvtU64FEHGBADC (f : CmdFields)
  /-- `CVT.U64.EFGHABCD` (int64-unsigned-EFGHABCD), tag 0x87, rule R109. -/
  | cvtU64EFGHABCD (f : CmdFields)
  /-- `CVT.S64.ABCDEFGH` (int64-signed-ABCDEFGH), tag 0x88, rule R110. -/
  | cvtS64ABCDEFGH (f : CmdFields)
  /-- `CVT.S64.HGFEDCBA` (int64-signed-HGFEDCBA), tag 0x89, rule R111. -/
  | cvtS64HGFEDCBA (f : CmdFields)
  /-- `CVT.S64.BADCFEHG` (int64-signed-BADCFEHG), tag 0x8A, rule R112. -/
  | cvtS64BADCFEHG (f : CmdFields)
  /-- `CVT.S64.CDABGHEF` (int64-signed-CDABGHEF), tag 0x8B, rule R113. -/
  | cvtS64CDABGHEF (f : CmdFields)
  /-- `CVT.S64.DCBAHGFE` (int64-signed-DCBAHGFE), tag 0x8C, rule R114. -/
  | cvtS64DCBAHGFE (f : CmdFields)
  /-- `CVT.S64.GHEFCDAB` (int64-signed-GHEFCDAB), tag 0x8D, rule R115. -/
  | cvtS64GHEFCDAB (f : CmdFields)
  /-- `CVT.S64.FEHGBADC` (int64-signed-FEHGBADC), tag 0x8E, rule R116. -/
  | cvtS64FEHGBADC (f : CmdFields)
  /-- `CVT.S64.EFGHABCD` (int64-signed-EFGHABCD), tag 0x8F, rule R117. -/
  | cvtS64EFGHABCD (f : CmdFields)
  /-- `CVT.F64.ABCDEFGH` (float64-ABCDEFGH), tag 0x90, rule R126. -/
  | cvtF64ABCDEFGH (f : CmdFields)
  /-- `CVT.F64.HGFEDCBA` (float64-HGFEDCBA), tag 0x91, rule R127. -/
  | cvtF64HGFEDCBA (f : CmdFields)
  /-- `CVT.F64.BADCFEHG` (float64-BADCFEHG), tag 0x92, rule R128. -/
  | cvtF64BADCFEHG (f : CmdFields)
  /-- `CVT.F64.CDABGHEF` (float64-CDABGHEF), tag 0x93, rule R129. -/
  | cvtF64CDABGHEF (f : CmdFields)
  /-- `CVT.F64.DCBAHGFE` (float64-DCBAHGFE), tag 0x94, rule R130. -/
  | cvtF64DCBAHGFE (f : CmdFields)
  /-- `CVT.F64.GHEFCDAB` (float64-GHEFCDAB), tag 0x95, rule R131. -/
  | cvtF64GHEFCDAB (f : CmdFields)
  /-- `CVT.F64.FEHGBADC` (float64-FEHGBADC), tag 0x96, rule R132. -/
  | cvtF64FEHGBADC (f : CmdFields)
  /-- `CVT.F64.EFGHABCD` (float64-EFGHABCD), tag 0x97, rule R133. -/
  | cvtF64EFGHABCD (f : CmdFields)
  deriving DecidableEq, Repr

end Sys2Proof
end

