-- ==== Sys2Proof/WellFormed.lean ====
section
/-! DEFINITION. What makes an instruction well formed: its `BITPOS` and `COUNT` operands are values
of the 8-bit unsigned fields of 30_encoding.md R46. The other fields are bit vectors of their exact
width and need no check. -/

namespace Sys2Proof

/-- The fields of the `CMD` word an instruction was written with. -/
def Instr.fields : Instr → CmdFields
  | .cvtBOOL f => f
  | .cvtU8 f => f
  | .cvtS8 f => f
  | .cvtU16AB f => f
  | .cvtU16BA f => f
  | .cvtS16AB f => f
  | .cvtS16BA f => f
  | .cvtU32ABCD f => f
  | .cvtU32DCBA f => f
  | .cvtU32BADC f => f
  | .cvtU32CDAB f => f
  | .cvtS32ABCD f => f
  | .cvtS32DCBA f => f
  | .cvtS32BADC f => f
  | .cvtS32CDAB f => f
  | .cvtF32ABCD f => f
  | .cvtF32DCBA f => f
  | .cvtF32BADC f => f
  | .cvtF32CDAB f => f
  | .cvtU64ABCDEFGH f => f
  | .cvtU64HGFEDCBA f => f
  | .cvtU64BADCFEHG f => f
  | .cvtU64CDABGHEF f => f
  | .cvtU64DCBAHGFE f => f
  | .cvtU64GHEFCDAB f => f
  | .cvtU64FEHGBADC f => f
  | .cvtU64EFGHABCD f => f
  | .cvtS64ABCDEFGH f => f
  | .cvtS64HGFEDCBA f => f
  | .cvtS64BADCFEHG f => f
  | .cvtS64CDABGHEF f => f
  | .cvtS64DCBAHGFE f => f
  | .cvtS64GHEFCDAB f => f
  | .cvtS64FEHGBADC f => f
  | .cvtS64EFGHABCD f => f
  | .cvtF64ABCDEFGH f => f
  | .cvtF64HGFEDCBA f => f
  | .cvtF64BADCFEHG f => f
  | .cvtF64CDABGHEF f => f
  | .cvtF64DCBAHGFE f => f
  | .cvtF64GHEFCDAB f => f
  | .cvtF64FEHGBADC f => f
  | .cvtF64EFGHABCD f => f

/-- `BITPOS` fits its 8-bit field (30_encoding.md R46). -/
abbrev CmdFields.BitposFits (f : CmdFields) : Prop := f.bitpos < 256

/-- `COUNT` fits its 8-bit field (30_encoding.md R46). -/
abbrev CmdFields.CountFits (f : CmdFields) : Prop := f.count < 256

/-- An instruction that some `CMD` word encodes: both unsigned operands fit their fields. -/
abbrev Instr.WellFormed (i : Instr) : Prop := i.fields.BitposFits ∧ i.fields.CountFits

end Sys2Proof
end

