-- ==== Sys2Proof/Decode.lean ====
section
/-! DEFINITION. Decoding a `CMD` word (30_encoding.md R45 to R54) and encoding an instruction.
The decoder looks the tag `CMD[7:0]` up in the table of R50 (R52); a tag that is not in it is
rejected by name (R53). -/

namespace Sys2Proof

/-- Why a `CMD` word names no instruction. -/
inductive DecodeError where
  /-- The Data Type tag is none of the 43 of 30_encoding.md R50 (R53). -/
  | illegalTag (dtype : BitVec 8)
  deriving DecidableEq, Repr

/-- `DTYPE = CMD[7:0]`, the Data Type tag (30_encoding.md R45, R48). -/
def dtypeOf (v : BitVec 32) : BitVec 8 := v.extractLsb' 0 8

/-- The other fields of a `CMD` word: `BITPOS = uint(CMD[15:8])`, `COUNT = uint(CMD[23:16])`,
`RP = CMD[24]`, `DP = CMD[25]`, reserved `CMD[31:26]` (30_encoding.md R45 to R47). -/
def fieldsOf (v : BitVec 32) : CmdFields where
  bitpos := (v.extractLsb' 8 8).toNat
  count := (v.extractLsb' 16 8).toNat
  rp := v.getLsbD 24
  dp := v.getLsbD 25
  reserved := v.extractLsb' 26 6

/-- One row of the tag table: the tag and the instruction it selects. -/
structure TagRow where
  dtype : BitVec 8
  make : CmdFields → Instr

/-- The one-word tags of 30_encoding.md R50 (boolean, 8-bit, 16-bit). -/
def tagRowsOneWord : List TagRow :=
  [ ⟨0x00#8, .cvtBOOL⟩,
    ⟨0x20#8, .cvtU8⟩,
    ⟨0x28#8, .cvtS8⟩,
    ⟨0x40#8, .cvtU16AB⟩,
    ⟨0x41#8, .cvtU16BA⟩,
    ⟨0x48#8, .cvtS16AB⟩,
    ⟨0x49#8, .cvtS16BA⟩ ]

/-- The two-word tags of 30_encoding.md R50 (32-bit integers and float32). -/
def tagRowsTwoWords : List TagRow :=
  [ ⟨0x60#8, .cvtU32ABCD⟩,
    ⟨0x61#8, .cvtU32DCBA⟩,
    ⟨0x62#8, .cvtU32BADC⟩,
    ⟨0x63#8, .cvtU32CDAB⟩,
    ⟨0x68#8, .cvtS32ABCD⟩,
    ⟨0x69#8, .cvtS32DCBA⟩,
    ⟨0x6A#8, .cvtS32BADC⟩,
    ⟨0x6B#8, .cvtS32CDAB⟩,
    ⟨0x70#8, .cvtF32ABCD⟩,
    ⟨0x71#8, .cvtF32DCBA⟩,
    ⟨0x72#8, .cvtF32BADC⟩,
    ⟨0x73#8, .cvtF32CDAB⟩ ]

/-- The four-word integer tags of 30_encoding.md R50. -/
def tagRowsInt64 : List TagRow :=
  [ ⟨0x80#8, .cvtU64ABCDEFGH⟩,
    ⟨0x81#8, .cvtU64HGFEDCBA⟩,
    ⟨0x82#8, .cvtU64BADCFEHG⟩,
    ⟨0x83#8, .cvtU64CDABGHEF⟩,
    ⟨0x84#8, .cvtU64DCBAHGFE⟩,
    ⟨0x85#8, .cvtU64GHEFCDAB⟩,
    ⟨0x86#8, .cvtU64FEHGBADC⟩,
    ⟨0x87#8, .cvtU64EFGHABCD⟩,
    ⟨0x88#8, .cvtS64ABCDEFGH⟩,
    ⟨0x89#8, .cvtS64HGFEDCBA⟩,
    ⟨0x8A#8, .cvtS64BADCFEHG⟩,
    ⟨0x8B#8, .cvtS64CDABGHEF⟩,
    ⟨0x8C#8, .cvtS64DCBAHGFE⟩,
    ⟨0x8D#8, .cvtS64GHEFCDAB⟩,
    ⟨0x8E#8, .cvtS64FEHGBADC⟩,
    ⟨0x8F#8, .cvtS64EFGHABCD⟩ ]

/-- The float64 tags of 30_encoding.md R50. All eight are decoded; the one that F64_EXCLUDED_PAT
may exclude is turned away by the dispatcher (44_float.md R134). -/
def tagRowsFloat64 : List TagRow :=
  [ ⟨0x90#8, .cvtF64ABCDEFGH⟩,
    ⟨0x91#8, .cvtF64HGFEDCBA⟩,
    ⟨0x92#8, .cvtF64BADCFEHG⟩,
    ⟨0x93#8, .cvtF64CDABGHEF⟩,
    ⟨0x94#8, .cvtF64DCBAHGFE⟩,
    ⟨0x95#8, .cvtF64GHEFCDAB⟩,
    ⟨0x96#8, .cvtF64FEHGBADC⟩,
    ⟨0x97#8, .cvtF64EFGHABCD⟩ ]

/-- The table of the 43 valid tags, in the order of 30_encoding.md R50. -/
def tagTable : List TagRow :=
  tagRowsOneWord ++ tagRowsTwoWords ++ tagRowsInt64 ++ tagRowsFloat64

/-- The row whose tag is `t`, if there is one (30_encoding.md R52). -/
def lookupTag (t : BitVec 8) : Option TagRow := tagTable.find? fun r => r.dtype == t

/-- The instruction a `CMD` word stands for, or the name of what is wrong with it. -/
def decode (v : BitVec 32) : Except DecodeError Instr :=
  match lookupTag (dtypeOf v) with
  | some r => .ok (r.make (fieldsOf v))
  | none => .error (.illegalTag (dtypeOf v))

/-- The Data Type tag of an instruction (30_encoding.md R50). -/
def Instr.tag : Instr → BitVec 8
  | .cvtBOOL _ => 0x00#8
  | .cvtU8 _ => 0x20#8
  | .cvtS8 _ => 0x28#8
  | .cvtU16AB _ => 0x40#8
  | .cvtU16BA _ => 0x41#8
  | .cvtS16AB _ => 0x48#8
  | .cvtS16BA _ => 0x49#8
  | .cvtU32ABCD _ => 0x60#8
  | .cvtU32DCBA _ => 0x61#8
  | .cvtU32BADC _ => 0x62#8
  | .cvtU32CDAB _ => 0x63#8
  | .cvtS32ABCD _ => 0x68#8
  | .cvtS32DCBA _ => 0x69#8
  | .cvtS32BADC _ => 0x6A#8
  | .cvtS32CDAB _ => 0x6B#8
  | .cvtF32ABCD _ => 0x70#8
  | .cvtF32DCBA _ => 0x71#8
  | .cvtF32BADC _ => 0x72#8
  | .cvtF32CDAB _ => 0x73#8
  | .cvtU64ABCDEFGH _ => 0x80#8
  | .cvtU64HGFEDCBA _ => 0x81#8
  | .cvtU64BADCFEHG _ => 0x82#8
  | .cvtU64CDABGHEF _ => 0x83#8
  | .cvtU64DCBAHGFE _ => 0x84#8
  | .cvtU64GHEFCDAB _ => 0x85#8
  | .cvtU64FEHGBADC _ => 0x86#8
  | .cvtU64EFGHABCD _ => 0x87#8
  | .cvtS64ABCDEFGH _ => 0x88#8
  | .cvtS64HGFEDCBA _ => 0x89#8
  | .cvtS64BADCFEHG _ => 0x8A#8
  | .cvtS64CDABGHEF _ => 0x8B#8
  | .cvtS64DCBAHGFE _ => 0x8C#8
  | .cvtS64GHEFCDAB _ => 0x8D#8
  | .cvtS64FEHGBADC _ => 0x8E#8
  | .cvtS64EFGHABCD _ => 0x8F#8
  | .cvtF64ABCDEFGH _ => 0x90#8
  | .cvtF64HGFEDCBA _ => 0x91#8
  | .cvtF64BADCFEHG _ => 0x92#8
  | .cvtF64CDABGHEF _ => 0x93#8
  | .cvtF64DCBAHGFE _ => 0x94#8
  | .cvtF64GHEFCDAB _ => 0x95#8
  | .cvtF64FEHGBADC _ => 0x96#8
  | .cvtF64EFGHABCD _ => 0x97#8

/-- The `CMD` word of fields and a tag: each field at its place in the figure of 30_encoding.md R45,
as the formula of R55 adds them up, with the reserved bits above. -/
def cmdWord (f : CmdFields) (tag : BitVec 8) : BitVec 32 :=
  BitVec.ofNat 32 (tag.toNat + 2 ^ 8 * (f.bitpos % 2 ^ 8) + 2 ^ 16 * (f.count % 2 ^ 8) +
    2 ^ 24 * f.rp.toNat + 2 ^ 25 * f.dp.toNat + 2 ^ 26 * f.reserved.toNat)

/-- The `CMD` word of an instruction. -/
def encode (i : Instr) : BitVec 32 := cmdWord i.fields i.tag

/-- The `CMD` word given by its low `nbits` bits, every bit above them zero. -/
def wordOfBits (nbits w : Nat) : BitVec 32 := BitVec.ofNat 32 (w % 2 ^ nbits)

/-- What the decoder reads from the low `nbits` bits of `w`. -/
def decodeTableWord (nbits w : Nat) : Option Instr :=
  match decode (wordOfBits nbits w) with
  | .ok i => some i
  | .error _ => none

end Sys2Proof
end

