-- ==== Sys2Proof/Machine/State.lean ====
section
/-! DEFINITION. The machine's state: the eight registers of 10_state.md, and the model's own fields
for the host's side and for what the spec leaves open. -/

namespace Sys2Proof.Machine

/-- The eight register numbers of the interface space, 0 to 7 in this order (20_memory.md R31). There
is no other register number (R43), so the type has eight values. -/
inductive Reg where
  | x0 | x1 | x2 | x3 | scale | cmd | status | result
  deriving DecidableEq, Repr

/-- A register together with a value of exactly its width: what a `RegWrite` carries and what a
`RegRead` returns (20_memory.md R31 to R34). -/
inductive RegVal where
  | x0 (v : Word)
  | x1 (v : Word)
  | x2 (v : Word)
  | x3 (v : Word)
  | scale (v : BitVec 64)
  | cmd (v : BitVec 32)
  | status (v : BitVec 8)
  | result (v : BitVec 64)
  deriving DecidableEq, Repr

/-- One operation of the host: `RegRead(k)`, `RegWrite(k, v)` or reset
(20_memory.md R32 to R34, 70_reset_and_hazards.md R180). -/
inductive HostOp where
  | read (k : Reg)
  | write (r : RegVal)
  | reset
  deriving DecidableEq, Repr

/-- Why the machine stops with a fault: never. The spec's errors are values reported in `STATUS`
(60_exceptions.md R160, R164) and "Nothing in the block is stuck" (93_implementation_defined.md), so
the type has no constructor and nothing raises one. Safe (log 6). -/
inductive Fault where
  deriving DecidableEq, Repr

/-- Why the model gives an instruction no meaning. -/
inductive Refusal where
  /-- Raised by an arm of `exec` whose instruction has no meaning yet: no arm is one, so nothing
  raises it. Safe: the machine stops. -/
  | notModelled (mnemonic : String)
  deriving DecidableEq, Repr

/-- The state. The first eight fields are the block's registers, all the state the spec gives it
(10_state.md R10 to R18); the last four are the model's own. -/
structure State where
  /-- `x[0]`, the first word received (10_state.md R10). -/
  x0 : Word
  /-- `x[1]` (10_state.md R10). -/
  x1 : Word
  /-- `x[2]` (10_state.md R10). -/
  x2 : Word
  /-- `x[3]` (10_state.md R10). -/
  x3 : Word
  /-- `SCALE`, a binary64 encoding (10_state.md R13). -/
  scale : BitVec 64
  /-- `CMD`, the value last written (10_state.md R14). -/
  cmd : BitVec 32
  /-- `STATUS`: ERR in bits 2:0, zero in bits 6:3, DONE in bit 7 (10_state.md R16). -/
  status : BitVec 8
  /-- `RESULT`, the result slot (10_state.md R17, R18). -/
  result : BitVec 64
  /-- The model's own: the host operations issued and not yet performed, oldest first (10_state.md
  R22, 70_reset_and_hazards.md R182). DESIGN CHOICE, log 1. -/
  pending : List HostOp
  /-- The model's own: what the performed reads returned, oldest first (20_memory.md R32). DESIGN
  CHOICE, log 2. -/
  answers : List RegVal
  /-- The model's own: the number of the next draw of a free value. DESIGN CHOICE, log 3. -/
  draws : Nat
  /-- The parameter F64_EXCLUDED_PAT: none, or the float64 pattern that is not implemented
  (00_scope.md R4, 44_float.md R134). Nothing writes it. DESIGN CHOICE, log 4. -/
  f64Excluded : Option Pat64
  deriving DecidableEq, Repr

/-- The machine right after reset: the values of 10_state.md R27 and 70_reset_and_hazards.md R180,
nothing pending, nothing answered, F64_EXCLUDED_PAT at its default. -/
def State.reset : State where
  x0 := 0x0000#16
  x1 := 0x0000#16
  x2 := 0x0000#16
  x3 := 0x0000#16
  scale := 0x3FF0000000000000#64
  cmd := 0x00000000#32
  status := 0x00#8
  result := 0x0000000000000000#64
  pending := []
  answers := []
  draws := 0
  f64Excluded := none

end Sys2Proof.Machine
end

