-- ==== Sys2Proof/Machine/Flags.lean ====
section
/-! DEFINITION. The error kinds and the `STATUS` register, the only status a command leaves
(10_state.md R16, R23; 60_exceptions.md R160). The block has no condition codes. -/

namespace Sys2Proof.Machine

/-- The closed taxonomy of 60_exceptions.md R160. `unknown` is reserved: nothing produces it (R161). -/
inductive ErrorKind where
  | success | nullPointer | invalidType | invalidBitPosition | insufficientRegisters | unknown
  deriving DecidableEq, Repr

/-- The number of an error kind in `STATUS.ERR` (60_exceptions.md R160). -/
def ErrorKind.code : ErrorKind → BitVec 3
  | .success => 0
  | .nullPointer => 1
  | .invalidType => 2
  | .invalidBitPosition => 3
  | .insufficientRegisters => 4
  | .unknown => 5

/-- `STATUS` after a command that ended with `e`: DONE in bit 7, bits 6:3 zero, ERR in bits 2:0
(10_state.md R16). -/
def statusWord (e : ErrorKind) : BitVec 8 := 1#1 ++ 0#4 ++ e.code

/-- `STATUS.ERR`, bits 2:0 (10_state.md R16). -/
def errOf (status : BitVec 8) : BitVec 3 := status.extractLsb' 0 3

/-- `STATUS.DONE`, bit 7 (10_state.md R16). -/
def doneOf (status : BitVec 8) : Bool := status.getLsbD 7

end Sys2Proof.Machine
end

