-- ==== Sys2Proof/Machine/Numerics.lean ====
section
/-! DEFINITION. The floating-point scaling multiplier and narrowing (45_scaling_numerics.md). A
floating-point datum is kept as sign, integer significand and power of two, so every product is exact
before its one rounding; every rounding is to nearest, ties to even (92_eei_decisions.md D15). -/

namespace Sys2Proof.Machine

/-- A binary interchange format: the widths of its exponent and fraction fields
(45_scaling_numerics.md R152). -/
structure Format where
  expWidth : Nat
  fracWidth : Nat
  deriving DecidableEq, Repr

/-- 1 sign, 8 exponent and 23 fraction bits (45_scaling_numerics.md R152). -/
def binary32 : Format := ⟨8, 23⟩

/-- 1 sign, 11 exponent and 52 fraction bits (45_scaling_numerics.md R152). -/
def binary64 : Format := ⟨11, 52⟩

/-- The exponent bias, 127 or 1023 (45_scaling_numerics.md R152). -/
def Format.bias (F : Format) : Nat := 2 ^ (F.expWidth - 1) - 1

/-- The power of two that one unit of the fraction weighs in a subnormal (45_scaling_numerics.md
R152): the finest spacing of the format. -/
def Format.minExp (F : Format) : Int := 1 - F.bias - F.fracWidth

/-- The encoding of +infinity: exponent all ones, fraction zero (45_scaling_numerics.md R152). Every
finite magnitude is encoded below it. -/
def Format.infBits (F : Format) : Nat := (2 ^ F.expWidth - 1) * 2 ^ F.fracWidth

/-- The sign bit at its place. -/
def Format.signBits (F : Format) (neg : Bool) : Nat :=
  if neg then 2 ^ (F.expWidth + F.fracWidth) else 0

/-- A floating-point datum: a NaN, an infinity, or `(-1)^neg * m * 2^e`, a zero with its sign when
`m = 0`. Which NaN it was is not kept: the spec leaves the payload of a NaN result open
(45_scaling_numerics.md R147; DEDUCED, log 7). -/
inductive Datum where
  | nan
  | inf (neg : Bool)
  | fin (neg : Bool) (m : Nat) (e : Int)
  deriving DecidableEq, Repr

/-- The datum an encoding denotes (45_scaling_numerics.md R152). -/
def Format.datum (F : Format) (bits : Nat) : Datum :=
  let neg := bits / 2 ^ (F.expWidth + F.fracWidth) % 2 == 1
  let e := bits / 2 ^ F.fracWidth % 2 ^ F.expWidth
  let m := bits % 2 ^ F.fracWidth
  if e = 0 then .fin neg m F.minExp
  else if e = 2 ^ F.expWidth - 1 then (if m = 0 then .inf neg else .nan)
  else .fin neg (2 ^ F.fracWidth + m) (F.minExp + (e - 1))

/-- `m / 2^sh` rounded to the nearest integer, ties to the even one. -/
def roundShift (m sh : Nat) : Nat :=
  let q := m / 2 ^ sh
  let r := m % 2 ^ sh
  if 2 ^ sh < 2 * r ∨ (2 * r = 2 ^ sh ∧ q % 2 = 1) then q + 1 else q

/-- The power of two of the last place kept when `m * 2^e` is rounded to the format: the leading bit
of `m` keeps `fracWidth` places below it, but nothing finer than the subnormal spacing is kept
(gradual underflow, 45_scaling_numerics.md R142). -/
def Format.lastPlace (F : Format) (m : Nat) (e : Int) : Int :=
  max F.minExp (Nat.log2 m + e - F.fracWidth)

/-- The significand of `m * 2^e` rounded to the nearest multiple of `2^q`, ties to even, in units of
`2^q`. -/
def roundAt (m : Nat) (e q : Int) : Nat :=
  if q ≤ e then m * 2 ^ (e - q).toNat else roundShift m (q - e).toNat

/-- The encoding, sign apart, of `m * 2^e` rounded to the format. A significand of `n` units at last
place `q` is encoded `(q - minExp) * 2^fracWidth + n` for subnormals and normals alike, a carry out
of the significand moving into the exponent; what reaches the encoding of infinity is infinity
(45_scaling_numerics.md R142, R149; DEDUCED, log 9). -/
def Format.roundBits (F : Format) (m : Nat) (e : Int) : Nat :=
  if m = 0 then 0
  else
    let q := F.lastPlace m e
    min F.infBits ((q - F.minExp).toNat * 2 ^ F.fracWidth + roundAt m e q)

/-- The datum of the format nearest to `(-1)^neg * m * 2^e`, ties to even, overflowing to the infinity
of that sign. -/
def Format.round (F : Format) (neg : Bool) (m : Nat) (e : Int) : Datum :=
  F.datum (F.signBits neg + F.roundBits m e)

/-- `f64(b)`: the datum a binary64 encoding denotes (00_scope.md R7). -/
def f64 (b : BitVec 64) : Datum := binary64.datum b.toNat

/-- `f32(b)`: the datum a binary32 encoding denotes (00_scope.md R7). -/
def f32 (b : BitVec 32) : Datum := binary32.datum b.toNat

/-- The encoding of a datum in a format; a NaN takes the free quiet NaN `nan`. -/
def Format.encode (F : Format) (nan : Nat) : Datum → Nat
  | .nan => nan
  | .inf neg => F.signBits neg + F.infBits
  | .fin neg m e => F.signBits neg + F.roundBits m e

/-- Some quiet NaN of binary32: exponent all ones and top fraction bit 1, the other bits free
(45_scaling_numerics.md R147). -/
def quietNaN32 (free : BitVec 64) : BitVec 32 := free.setWidth 32 ||| 0x7FC00000#32

/-- Some quiet NaN of binary64 (45_scaling_numerics.md R147). -/
def quietNaN64 (free : BitVec 64) : BitVec 64 := free ||| 0x7FF8000000000000#64

/-- `bits32(f)` (00_scope.md R7), a NaN result being NAN_RESULT (45_scaling_numerics.md R147). -/
def bits32 (free : BitVec 64) (d : Datum) : BitVec 32 :=
  BitVec.ofNat 32 (binary32.encode (quietNaN32 free).toNat d)

/-- `bits64(f)` (00_scope.md R7), a NaN result being NAN_RESULT (45_scaling_numerics.md R147). -/
def bits64 (free : BitVec 64) (d : Datum) : BitVec 64 :=
  BitVec.ofNat 64 (binary64.encode (quietNaN64 free).toNat d)

/-- `i2f64(v)`: the binary64 datum nearest to an integer, ties to even (45_scaling_numerics.md R141). -/
def i2f64 (v : Int) : Datum := binary64.round (decide (v < 0)) v.natAbs 0

/-- `fmul64(a, b)`: the IEEE-754 binary64 product (45_scaling_numerics.md R142). -/
def fmul64 : Datum → Datum → Datum
  | .nan, _ => .nan
  | .inf _, .nan => .nan
  | .inf a, .inf b => .inf (a != b)
  | .inf a, .fin b n _ => if n = 0 then .nan else .inf (a != b)
  | .fin _ _ _, .nan => .nan
  | .fin a m _, .inf b => if m = 0 then .nan else .inf (a != b)
  | .fin a m e, .fin b n k => binary64.round (a != b) (m * n) (e + k)

/-- `trunc(p)` of the finite datum `(-1)^neg * m * 2^e`: the integer left when the fraction is
discarded (45_scaling_numerics.md R143). -/
def trunc (neg : Bool) (m : Nat) (e : Int) : Int :=
  let a : Nat := if 0 ≤ e then m * 2 ^ e.toNat else m / 2 ^ (-e).toNat
  if neg then -(a : Int) else a

/-- `wrap_N(t)`: the `n`-bit vector denoting `t mod 2^n` (45_scaling_numerics.md R144). -/
def wrap (n : Nat) (t : Int) : BitVec n := BitVec.ofNat n (t % 2 ^ n).toNat

/-- The product an integer command narrows: `fmul64(i2f64(v), f64(SCALE))` (45_scaling_numerics.md
R140). -/
def scaledProduct (v : Int) (scale : BitVec 64) : Datum := fmul64 (i2f64 v) (f64 scale)

/-- `scale_int(v, N)` (45_scaling_numerics.md R140): scale, truncate, wrap; `free` is NONFINITE_INT,
of which a product that is no number takes the low `n` bits (R145). -/
def scaleInt (n : Nat) (v : Int) (scale free : BitVec 64) : BitVec n :=
  match scaledProduct v scale with
  | .nan => free.setWidth n
  | .inf _ => free.setWidth n
  | .fin neg m e => wrap n (trunc neg m e)

/-- `f32to64(a)`: the binary64 datum equal to a binary32 datum (45_scaling_numerics.md R148). -/
def f32to64 : Datum → Datum
  | .nan => .nan
  | .inf neg => .inf neg
  | .fin neg m e => binary64.round neg m e

/-- `f64to32(p)`: the binary32 datum nearest to a binary64 datum (45_scaling_numerics.md R149). -/
def f64to32 : Datum → Datum
  | .nan => .nan
  | .inf neg => .inf neg
  | .fin neg m e => binary32.round neg m e

/-- `scale_f32(raw)` (45_scaling_numerics.md R150): widen, multiply in binary64, round once. -/
def scaleF32 (raw : BitVec 32) (scale free : BitVec 64) : BitVec 32 :=
  bits32 free (f64to32 (fmul64 (f32to64 (f32 raw)) (f64 scale)))

/-- `scale_f64(raw)` (45_scaling_numerics.md R151). -/
def scaleF64 (raw scale free : BitVec 64) : BitVec 64 :=
  bits64 free (fmul64 (f64 raw) (f64 scale))

end Sys2Proof.Machine
end

