-- ==== Sys2Proof/Machine/Operands.lean ====
section
/-! DEFINITION. How the operand words become a raw value: byte labels (00_scope.md R6), the reorder
muxes (41_bool_int8_int16.md R83, 42_int32.md R90, 43_int64.md R100) and the integer readings
(00_scope.md R5). -/

namespace Sys2Proof.Machine

/-- The byte of a word that was transmitted first (00_scope.md R5, 20_memory.md R35). -/
def hi8 (w : Word) : Byte := w.extractLsb' 8 8

/-- The byte of a word that was transmitted second (00_scope.md R5, 20_memory.md R35). -/
def lo8 (w : Word) : Byte := w.extractLsb' 0 8

/-- A word with its two bytes exchanged (00_scope.md R5). -/
def swap16 (w : Word) : Word := lo8 w ++ hi8 w

/-- The bytes of a register sequence in transmission order: A, B, C, … (00_scope.md R6). -/
def bytesOf : List Word → List Byte
  | [] => []
  | w :: ws => hi8 w :: lo8 w :: bytesOf ws

/-- The bytes named by a byte-select list: result byte `i` is source byte `sel[i]` (42_int32.md R90). -/
def selectBytes (sel : List Nat) (bytes : List Byte) : List Byte :=
  sel.map fun i => bytes.getD i 0

/-- Bytes assembled most significant first into `n` bits (20_memory.md R35). -/
def assemble (n : Nat) (bytes : List Byte) : BitVec n :=
  bytes.foldl (fun acc b => (acc <<< 8) ||| b.setWidth n) 0

/-- The byte-select lists of the 16-bit types (41_bool_int8_int16.md R83). -/
def perm16 : Pat16 → List Nat
  | .ab => [0, 1]
  | .ba => [1, 0]

/-- The byte-select lists of the 32-bit types (42_int32.md R90). -/
def perm32 : Pat32 → List Nat
  | .abcd => [0, 1, 2, 3]
  | .dcba => [3, 2, 1, 0]
  | .badc => [1, 0, 3, 2]
  | .cdab => [2, 3, 0, 1]

/-- PERM64: the byte-select lists of the 64-bit types by pattern name (43_int64.md R100; the name
wins over the source's mechanism columns, 90_conflicts.md C1; log 5). -/
def perm64 : Pat64 → List Nat
  | .abcdefgh => [0, 1, 2, 3, 4, 5, 6, 7]
  | .hgfedcba => [7, 6, 5, 4, 3, 2, 1, 0]
  | .badcfehg => [1, 0, 3, 2, 5, 4, 7, 6]
  | .cdabghef => [2, 3, 0, 1, 6, 7, 4, 5]
  | .dcbahgfe => [3, 2, 1, 0, 7, 6, 5, 4]
  | .ghefcdab => [6, 7, 4, 5, 2, 3, 0, 1]
  | .fehgbadc => [5, 4, 7, 6, 1, 0, 3, 2]
  | .efghabcd => [4, 5, 6, 7, 0, 1, 2, 3]

/-- The 16-bit byte mux (41_bool_int8_int16.md R83). -/
def ord16 (p : Pat16) (w : Word) : BitVec 16 :=
  assemble 16 (selectBytes (perm16 p) (bytesOf [w]))

/-- The 32-bit reorder mux (42_int32.md R90). -/
def reorder32 (p : Pat32) (x0 x1 : Word) : BitVec 32 :=
  assemble 32 (selectBytes (perm32 p) (bytesOf [x0, x1]))

/-- The 64-bit reorder mux (43_int64.md R100). -/
def reorder64 (p : Pat64) (x0 x1 x2 x3 : Word) : BitVec 64 :=
  assemble 64 (selectBytes (perm64 p) (bytesOf [x0, x1, x2, x3]))

/-- `uint(v)`: the non-negative integer a vector denotes (00_scope.md R5). -/
def uint {n : Nat} (v : BitVec n) : Int := v.toNat

/-- `sint_N(v)`: the two's-complement reading (00_scope.md R5). -/
def sint {n : Nat} (v : BitVec n) : Int :=
  if v.msb then (v.toNat : Int) - 2 ^ n else v.toNat

end Sys2Proof.Machine
end

