-- ==== Sys2Proof/Machine/Ops.lean ====
section
/-! DEFINITION. The shared operations over the registers: error entry, the packer, the dispatcher's
checks, the members the decoders return, and the host's accesses. -/

namespace Sys2Proof.Machine

open Host

/-- Error entry, `raise E` (60_exceptions.md R164): ERR and DONE are written and nothing else changes.
There is no return from it (R165): the block is ready for the next host operation. -/
def raise (e : ErrorKind) (s : State) : State := { s with status := statusWord e }

/-- The union result packer (40_dispatch.md R68): `RESULT <- zext_64(m)`, ERR 0, DONE 1. The number of
the next draw moves on, so that no two completed commands share a free value (log 3). -/
def pack {n : Nat} (m : BitVec n) (s : State) : State :=
  { s with result := m.setWidth 64, status := statusWord .success, draws := s.draws + 1 }

/-- Lines 1 to 4 of 40_dispatch.md R60, the dispatcher's checks in their order: the first that holds is
the error. `valid` says whether the tag is a valid one and `need` how many words its type needs. -/
def firstError (need : Nat) (valid : Bool) (f : CmdFields) : Option ErrorKind :=
  if f.rp = false ∨ f.dp = false then some .nullPointer
  else if f.count = 0 then some .insufficientRegisters
  else if valid = false then some .invalidType
  else if f.count < need then some .insufficientRegisters
  else none

/-- What follows the checks: the member the decoder returned is packed, or its error is raised
(40_dispatch.md R60 lines 5 to 7). -/
def finish {n : Nat} (m : Except ErrorKind (BitVec n)) (s : State) : State :=
  match m with
  | .error e => raise e s
  | .ok b => pack b s

/-- One command (40_dispatch.md R60): the checks, then the decoder's outcome `m`. Every command answers
a next state; an error is one too (60_exceptions.md R164). -/
def runCommand {n : Nat} (need : Nat) (valid : Bool) (f : CmdFields)
    (m : Except ErrorKind (BitVec n)) (s : State) : Outcome State Fault Refusal :=
  match firstError need valid f with
  | some e => .next (raise e s)
  | none => .next (finish m s)

/-- A command whose tag is none of the 43 (30_encoding.md R53, 40_dispatch.md R64): InvalidType, after
the checks for NullPointer and for an empty sequence. No decoder is reached. -/
def execIllegalTag (f : CmdFields) (s : State) : Outcome State Fault Refusal :=
  runCommand 0 false f (.error .invalidType : Except ErrorKind (BitVec 0)) s

/-- The float64 pattern is the one F64_EXCLUDED_PAT names, so its tag is not valid (44_float.md
R134). -/
def State.excludes (s : State) (p : Pat64) : Bool := s.f64Excluded == some p

/-- The boolean decoder (41_bool_int8_int16.md R80): bit `bitpos` of the word, bit 0 the least
significant. -/
def boolMember (bitpos : Nat) (w : Word) : Except ErrorKind (BitVec 1) :=
  if 15 < bitpos then .error .invalidBitPosition else .ok (BitVec.ofBool (w.getLsbD bitpos))

/-- The member of an integer command: `scale_int(v, N)` with this command's draw of NONFINITE_INT
(45_scaling_numerics.md R140, R145). -/
def intMember (n : Nat) (v : Int) (s : State) : BitVec n :=
  scaleInt n v s.scale (Config.nonfiniteInt s.draws)

/-- The member of a float32 command: `scale_f32(raw)` with this command's draw of NAN_RESULT
(45_scaling_numerics.md R150, R147). -/
def float32Member (raw : BitVec 32) (s : State) : BitVec 32 :=
  scaleF32 raw s.scale (Config.nanResult s.draws)

/-- The member of a float64 command: `scale_f64(raw)` with this command's draw of NAN_RESULT
(45_scaling_numerics.md R151, R147). -/
def float64Member (raw : BitVec 64) (s : State) : BitVec 64 :=
  scaleF64 raw s.scale (Config.nanResult s.draws)

/-- The value of a register, at its width (20_memory.md R31, R32). -/
def regRead (k : Reg) (s : State) : RegVal :=
  match k with
  | .x0 => .x0 s.x0
  | .x1 => .x1 s.x1
  | .x2 => .x2 s.x2
  | .x3 => .x3 s.x3
  | .scale => .scale s.scale
  | .cmd => .cmd s.cmd
  | .status => .status s.status
  | .result => .result s.result

/-- The store of a `RegWrite` (20_memory.md R33); a write of `STATUS` or `RESULT` is ignored (R34). -/
def regStore (r : RegVal) (s : State) : State :=
  match r with
  | .x0 v => { s with x0 := v }
  | .x1 v => { s with x1 := v }
  | .x2 v => { s with x2 := v }
  | .x3 v => { s with x3 := v }
  | .scale v => { s with scale := v }
  | .cmd v => { s with cmd := v }
  | .status _ => s
  | .result _ => s

/-- The reset a host performs (70_reset_and_hazards.md R180): the eight registers take the values of
10_state.md R27 and no command is executed. The host's own side, the draws and the parameter are not
registers of the block and stay (logs 1 to 4). -/
def resetRegs (s : State) : State :=
  { State.reset with
    pending := s.pending, answers := s.answers, draws := s.draws, f64Excluded := s.f64Excluded }

end Sys2Proof.Machine
end

