-- ==== Sys2Proof/Machine/Float.lean ====
section
/-! DEFINITION. The float32 and float64 commands (44_float.md). -/

namespace Sys2Proof.Machine

open Host

/-- CVT.F32.ABCD (R121): `x[0]`, `x[1]` in byte order ABCD, read as binary32 and multiplied by `SCALE`. -/
def execCvtF32ABCD (f : CmdFields) (s : State) : Outcome State Fault Refusal :=
  runCommand 2 true f (.ok (float32Member (reorder32 .abcd s.x0 s.x1) s)) s

/-- CVT.F32.DCBA (R122): `x[0]`, `x[1]` in byte order DCBA, read as binary32 and multiplied by `SCALE`. -/
def execCvtF32DCBA (f : CmdFields) (s : State) : Outcome State Fault Refusal :=
  runCommand 2 true f (.ok (float32Member (reorder32 .dcba s.x0 s.x1) s)) s

/-- CVT.F32.BADC (R123): `x[0]`, `x[1]` in byte order BADC, read as binary32 and multiplied by `SCALE`. -/
def execCvtF32BADC (f : CmdFields) (s : State) : Outcome State Fault Refusal :=
  runCommand 2 true f (.ok (float32Member (reorder32 .badc s.x0 s.x1) s)) s

/-- CVT.F32.CDAB (R124): `x[0]`, `x[1]` in byte order CDAB, read as binary32 and multiplied by `SCALE`. -/
def execCvtF32CDAB (f : CmdFields) (s : State) : Outcome State Fault Refusal :=
  runCommand 2 true f (.ok (float32Member (reorder32 .cdab s.x0 s.x1) s)) s

/-- CVT.F64.ABCDEFGH (R126): `x[0..3]` in byte order ABCDEFGH, read as binary64 and multiplied by `SCALE`. -/
def execCvtF64ABCDEFGH (f : CmdFields) (s : State) : Outcome State Fault Refusal :=
  runCommand 4 (!s.excludes .abcdefgh) f (.ok (float64Member (reorder64 .abcdefgh s.x0 s.x1 s.x2 s.x3) s)) s

/-- CVT.F64.HGFEDCBA (R127): `x[0..3]` in byte order HGFEDCBA, read as binary64 and multiplied by `SCALE`. -/
def execCvtF64HGFEDCBA (f : CmdFields) (s : State) : Outcome State Fault Refusal :=
  runCommand 4 (!s.excludes .hgfedcba) f (.ok (float64Member (reorder64 .hgfedcba s.x0 s.x1 s.x2 s.x3) s)) s

/-- CVT.F64.BADCFEHG (R128): `x[0..3]` in byte order BADCFEHG, read as binary64 and multiplied by `SCALE`. -/
def execCvtF64BADCFEHG (f : CmdFields) (s : State) : Outcome State Fault Refusal :=
  runCommand 4 (!s.excludes .badcfehg) f (.ok (float64Member (reorder64 .badcfehg s.x0 s.x1 s.x2 s.x3) s)) s

/-- CVT.F64.CDABGHEF (R129): `x[0..3]` in byte order CDABGHEF, read as binary64 and multiplied by `SCALE`. -/
def execCvtF64CDABGHEF (f : CmdFields) (s : State) : Outcome State Fault Refusal :=
  runCommand 4 (!s.excludes .cdabghef) f (.ok (float64Member (reorder64 .cdabghef s.x0 s.x1 s.x2 s.x3) s)) s

/-- CVT.F64.DCBAHGFE (R130): `x[0..3]` in byte order DCBAHGFE, read as binary64 and multiplied by `SCALE`. -/
def execCvtF64DCBAHGFE (f : CmdFields) (s : State) : Outcome State Fault Refusal :=
  runCommand 4 (!s.excludes .dcbahgfe) f (.ok (float64Member (reorder64 .dcbahgfe s.x0 s.x1 s.x2 s.x3) s)) s

/-- CVT.F64.GHEFCDAB (R131): `x[0..3]` in byte order GHEFCDAB, read as binary64 and multiplied by `SCALE`. -/
def execCvtF64GHEFCDAB (f : CmdFields) (s : State) : Outcome State Fault Refusal :=
  runCommand 4 (!s.excludes .ghefcdab) f (.ok (float64Member (reorder64 .ghefcdab s.x0 s.x1 s.x2 s.x3) s)) s

/-- CVT.F64.FEHGBADC (R132): `x[0..3]` in byte order FEHGBADC, read as binary64 and multiplied by `SCALE`. -/
def execCvtF64FEHGBADC (f : CmdFields) (s : State) : Outcome State Fault Refusal :=
  runCommand 4 (!s.excludes .fehgbadc) f (.ok (float64Member (reorder64 .fehgbadc s.x0 s.x1 s.x2 s.x3) s)) s

/-- CVT.F64.EFGHABCD (R133): `x[0..3]` in byte order EFGHABCD, read as binary64 and multiplied by `SCALE`. -/
def execCvtF64EFGHABCD (f : CmdFields) (s : State) : Outcome State Fault Refusal :=
  runCommand 4 (!s.excludes .efghabcd) f (.ok (float64Member (reorder64 .efghabcd s.x0 s.x1 s.x2 s.x3) s)) s

end Sys2Proof.Machine
end

