-- ==== Sys2Proof/Machine/Int32.lean ====
section
/-! DEFINITION. The 32-bit integer commands (42_int32.md). -/

namespace Sys2Proof.Machine

open Host

/-- CVT.U32.ABCD (R91): `x[0]`, `x[1]` in byte order ABCD, read as an unsigned integer and scaled. -/
def execCvtU32ABCD (f : CmdFields) (s : State) : Outcome State Fault Refusal :=
  runCommand 2 true f (.ok (intMember 32 (uint (reorder32 .abcd s.x0 s.x1)) s)) s

/-- CVT.U32.DCBA (R92): `x[0]`, `x[1]` in byte order DCBA, read as an unsigned integer and scaled. -/
def execCvtU32DCBA (f : CmdFields) (s : State) : Outcome State Fault Refusal :=
  runCommand 2 true f (.ok (intMember 32 (uint (reorder32 .dcba s.x0 s.x1)) s)) s

/-- CVT.U32.BADC (R93): `x[0]`, `x[1]` in byte order BADC, read as an unsigned integer and scaled. -/
def execCvtU32BADC (f : CmdFields) (s : State) : Outcome State Fault Refusal :=
  runCommand 2 true f (.ok (intMember 32 (uint (reorder32 .badc s.x0 s.x1)) s)) s

/-- CVT.U32.CDAB (R94): `x[0]`, `x[1]` in byte order CDAB, read as an unsigned integer and scaled. -/
def execCvtU32CDAB (f : CmdFields) (s : State) : Outcome State Fault Refusal :=
  runCommand 2 true f (.ok (intMember 32 (uint (reorder32 .cdab s.x0 s.x1)) s)) s

/-- CVT.S32.ABCD (R95): `x[0]`, `x[1]` in byte order ABCD, read as a two's-complement integer and scaled. -/
def execCvtS32ABCD (f : CmdFields) (s : State) : Outcome State Fault Refusal :=
  runCommand 2 true f (.ok (intMember 32 (sint (reorder32 .abcd s.x0 s.x1)) s)) s

/-- CVT.S32.DCBA (R96): `x[0]`, `x[1]` in byte order DCBA, read as a two's-complement integer and scaled. -/
def execCvtS32DCBA (f : CmdFields) (s : State) : Outcome State Fault Refusal :=
  runCommand 2 true f (.ok (intMember 32 (sint (reorder32 .dcba s.x0 s.x1)) s)) s

/-- CVT.S32.BADC (R97): `x[0]`, `x[1]` in byte order BADC, read as a two's-complement integer and scaled. -/
def execCvtS32BADC (f : CmdFields) (s : State) : Outcome State Fault Refusal :=
  runCommand 2 true f (.ok (intMember 32 (sint (reorder32 .badc s.x0 s.x1)) s)) s

/-- CVT.S32.CDAB (R98): `x[0]`, `x[1]` in byte order CDAB, read as a two's-complement integer and scaled. -/
def execCvtS32CDAB (f : CmdFields) (s : State) : Outcome State Fault Refusal :=
  runCommand 2 true f (.ok (intMember 32 (sint (reorder32 .cdab s.x0 s.x1)) s)) s

end Sys2Proof.Machine
end

