-- ==== Sys2Proof/Machine/Int64.lean ====
section
/-! DEFINITION. The 64-bit integer commands (43_int64.md). -/

namespace Sys2Proof.Machine

open Host

/-- CVT.U64.ABCDEFGH (R102): `x[0..3]` in byte order ABCDEFGH, read as an unsigned integer and scaled. -/
def execCvtU64ABCDEFGH (f : CmdFields) (s : State) : Outcome State Fault Refusal :=
  runCommand 4 true f (.ok (intMember 64 (uint (reorder64 .abcdefgh s.x0 s.x1 s.x2 s.x3)) s)) s

/-- CVT.U64.HGFEDCBA (R103): `x[0..3]` in byte order HGFEDCBA, read as an unsigned integer and scaled. -/
def execCvtU64HGFEDCBA (f : CmdFields) (s : State) : Outcome State Fault Refusal :=
  runCommand 4 true f (.ok (intMember 64 (uint (reorder64 .hgfedcba s.x0 s.x1 s.x2 s.x3)) s)) s

/-- CVT.U64.BADCFEHG (R104): `x[0..3]` in byte order BADCFEHG, read as an unsigned integer and scaled. -/
def execCvtU64BADCFEHG (f : CmdFields) (s : State) : Outcome State Fault Refusal :=
  runCommand 4 true f (.ok (intMember 64 (uint (reorder64 .badcfehg s.x0 s.x1 s.x2 s.x3)) s)) s

/-- CVT.U64.CDABGHEF (R105): `x[0..3]` in byte order CDABGHEF, read as an unsigned integer and scaled. -/
def execCvtU64CDABGHEF (f : CmdFields) (s : State) : Outcome State Fault Refusal :=
  runCommand 4 true f (.ok (intMember 64 (uint (reorder64 .cdabghef s.x0 s.x1 s.x2 s.x3)) s)) s

/-- CVT.U64.DCBAHGFE (R106): `x[0..3]` in byte order DCBAHGFE, read as an unsigned integer and scaled. -/
def execCvtU64DCBAHGFE (f : CmdFields) (s : State) : Outcome State Fault Refusal :=
  runCommand 4 true f (.ok (intMember 64 (uint (reorder64 .dcbahgfe s.x0 s.x1 s.x2 s.x3)) s)) s

/-- CVT.U64.GHEFCDAB (R107): `x[0..3]` in byte order GHEFCDAB, read as an unsigned integer and scaled. -/
def execCvtU64GHEFCDAB (f : CmdFields) (s : State) : Outcome State Fault Refusal :=
  runCommand 4 true f (.ok (intMember 64 (uint (reorder64 .ghefcdab s.x0 s.x1 s.x2 s.x3)) s)) s

/-- CVT.U64.FEHGBADC (R108): `x[0..3]` in byte order FEHGBADC, read as an unsigned integer and scaled. -/
def execCvtU64FEHGBADC (f : CmdFields) (s : State) : Outcome State Fault Refusal :=
  runCommand 4 true f (.ok (intMember 64 (uint (reorder64 .fehgbadc s.x0 s.x1 s.x2 s.x3)) s)) s

/-- CVT.U64.EFGHABCD (R109): `x[0..3]` in byte order EFGHABCD, read as an unsigned integer and scaled. -/
def execCvtU64EFGHABCD (f : CmdFields) (s : State) : Outcome State Fault Refusal :=
  runCommand 4 true f (.ok (intMember 64 (uint (reorder64 .efghabcd s.x0 s.x1 s.x2 s.x3)) s)) s

/-- CVT.S64.ABCDEFGH (R110): `x[0..3]` in byte order ABCDEFGH, read as a two's-complement integer and scaled. -/
def execCvtS64ABCDEFGH (f : CmdFields) (s : State) : Outcome State Fault Refusal :=
  runCommand 4 true f (.ok (intMember 64 (sint (reorder64 .abcdefgh s.x0 s.x1 s.x2 s.x3)) s)) s

/-- CVT.S64.HGFEDCBA (R111): `x[0..3]` in byte order HGFEDCBA, read as a two's-complement integer and scaled. -/
def execCvtS64HGFEDCBA (f : CmdFields) (s : State) : Outcome State Fault Refusal :=
  runCommand 4 true f (.ok (intMember 64 (sint (reorder64 .hgfedcba s.x0 s.x1 s.x2 s.x3)) s)) s

/-- CVT.S64.BADCFEHG (R112): `x[0..3]` in byte order BADCFEHG, read as a two's-complement integer and scaled. -/
def execCvtS64BADCFEHG (f : CmdFields) (s : State) : Outcome State Fault Refusal :=
  runCommand 4 true f (.ok (intMember 64 (sint (reorder64 .badcfehg s.x0 s.x1 s.x2 s.x3)) s)) s

/-- CVT.S64.CDABGHEF (R113): `x[0..3]` in byte order CDABGHEF, read as a two's-complement integer and scaled. -/
def execCvtS64CDABGHEF (f : CmdFields) (s : State) : Outcome State Fault Refusal :=
  runCommand 4 true f (.ok (intMember 64 (sint (reorder64 .cdabghef s.x0 s.x1 s.x2 s.x3)) s)) s

/-- CVT.S64.DCBAHGFE (R114): `x[0..3]` in byte order DCBAHGFE, read as a two's-complement integer and scaled. -/
def execCvtS64DCBAHGFE (f : CmdFields) (s : State) : Outcome State Fault Refusal :=
  runCommand 4 true f (.ok (intMember 64 (sint (reorder64 .dcbahgfe s.x0 s.x1 s.x2 s.x3)) s)) s

/-- CVT.S64.GHEFCDAB (R115): `x[0..3]` in byte order GHEFCDAB, read as a two's-complement integer and scaled. -/
def execCvtS64GHEFCDAB (f : CmdFields) (s : State) : Outcome State Fault Refusal :=
  runCommand 4 true f (.ok (intMember 64 (sint (reorder64 .ghefcdab s.x0 s.x1 s.x2 s.x3)) s)) s

/-- CVT.S64.FEHGBADC (R116): `x[0..3]` in byte order FEHGBADC, read as a two's-complement integer and scaled. -/
def execCvtS64FEHGBADC (f : CmdFields) (s : State) : Outcome State Fault Refusal :=
  runCommand 4 true f (.ok (intMember 64 (sint (reorder64 .fehgbadc s.x0 s.x1 s.x2 s.x3)) s)) s

/-- CVT.S64.EFGHABCD (R117): `x[0..3]` in byte order EFGHABCD, read as a two's-complement integer and scaled. -/
def execCvtS64EFGHABCD (f : CmdFields) (s : State) : Outcome State Fault Refusal :=
  runCommand 4 true f (.ok (intMember 64 (sint (reorder64 .efghabcd s.x0 s.x1 s.x2 s.x3)) s)) s

end Sys2Proof.Machine
end

