-- ==== Sys2Proof/Machine/OneWord.lean ====
section
/-! DEFINITION. The one-word commands: boolean, 8-bit and 16-bit (41_bool_int8_int16.md). -/

namespace Sys2Proof.Machine

open Host

/-- CVT.BOOL (R80): bit `BITPOS` of `x[0]`, bit 0 the least significant; `BITPOS > 15` raises
InvalidBitPosition, after the dispatcher's checks. `SCALE` is not read. -/
def execCvtBOOL (f : CmdFields) (s : State) : Outcome State Fault Refusal :=
  runCommand 1 true f (boolMember f.bitpos s.x0) s

/-- CVT.U8 (R81): the low byte of `x[0]`, read as an unsigned integer and scaled. -/
def execCvtU8 (f : CmdFields) (s : State) : Outcome State Fault Refusal :=
  runCommand 1 true f (.ok (intMember 8 (uint (lo8 s.x0)) s)) s

/-- CVT.S8 (R82): the low byte of `x[0]`, read as a two's-complement integer and scaled. -/
def execCvtS8 (f : CmdFields) (s : State) : Outcome State Fault Refusal :=
  runCommand 1 true f (.ok (intMember 8 (sint (lo8 s.x0)) s)) s

/-- CVT.U16.AB (R84): `x[0]` in byte order AB, read as an unsigned integer and scaled. -/
def execCvtU16AB (f : CmdFields) (s : State) : Outcome State Fault Refusal :=
  runCommand 1 true f (.ok (intMember 16 (uint (ord16 .ab s.x0)) s)) s

/-- CVT.U16.BA (R85): `x[0]` in byte order BA, read as an unsigned integer and scaled. -/
def execCvtU16BA (f : CmdFields) (s : State) : Outcome State Fault Refusal :=
  runCommand 1 true f (.ok (intMember 16 (uint (ord16 .ba s.x0)) s)) s

/-- CVT.S16.AB (R86): `x[0]` in byte order AB, read as a two's-complement integer and scaled. -/
def execCvtS16AB (f : CmdFields) (s : State) : Outcome State Fault Refusal :=
  runCommand 1 true f (.ok (intMember 16 (sint (ord16 .ab s.x0)) s)) s

/-- CVT.S16.BA (R87): `x[0]` in byte order BA, read as a two's-complement integer and scaled. -/
def execCvtS16BA (f : CmdFields) (s : State) : Outcome State Fault Refusal :=
  runCommand 1 true f (.ok (intMember 16 (sint (ord16 .ba s.x0)) s)) s

end Sys2Proof.Machine
end

