-- ==== Sys2Proof/Machine/Dispatch.lean ====
section
/-! DEFINITION. One arm per instruction: each calls its meaning. -/

namespace Sys2Proof.Machine

open Host

def exec (i : Instr) (s : State) : Host.Outcome State Fault Refusal :=
  match i with
  | .cvtBOOL f => Sys2Proof.Machine.execCvtBOOL f s
  | .cvtU8 f => Sys2Proof.Machine.execCvtU8 f s
  | .cvtS8 f => Sys2Proof.Machine.execCvtS8 f s
  | .cvtU16AB f => Sys2Proof.Machine.execCvtU16AB f s
  | .cvtU16BA f => Sys2Proof.Machine.execCvtU16BA f s
  | .cvtS16AB f => Sys2Proof.Machine.execCvtS16AB f s
  | .cvtS16BA f => Sys2Proof.Machine.execCvtS16BA f s
  | .cvtU32ABCD f => Sys2Proof.Machine.execCvtU32ABCD f s
  | .cvtU32DCBA f => Sys2Proof.Machine.execCvtU32DCBA f s
  | .cvtU32BADC f => Sys2Proof.Machine.execCvtU32BADC f s
  | .cvtU32CDAB f => Sys2Proof.Machine.execCvtU32CDAB f s
  | .cvtS32ABCD f => Sys2Proof.Machine.execCvtS32ABCD f s
  | .cvtS32DCBA f => Sys2Proof.Machine.execCvtS32DCBA f s
  | .cvtS32BADC f => Sys2Proof.Machine.execCvtS32BADC f s
  | .cvtS32CDAB f => Sys2Proof.Machine.execCvtS32CDAB f s
  | .cvtF32ABCD f => Sys2Proof.Machine.execCvtF32ABCD f s
  | .cvtF32DCBA f => Sys2Proof.Machine.execCvtF32DCBA f s
  | .cvtF32BADC f => Sys2Proof.Machine.execCvtF32BADC f s
  | .cvtF32CDAB f => Sys2Proof.Machine.execCvtF32CDAB f s
  | .cvtU64ABCDEFGH f => Sys2Proof.Machine.execCvtU64ABCDEFGH f s
  | .cvtU64HGFEDCBA f => Sys2Proof.Machine.execCvtU64HGFEDCBA f s
  | .cvtU64BADCFEHG f => Sys2Proof.Machine.execCvtU64BADCFEHG f s
  | .cvtU64CDABGHEF f => Sys2Proof.Machine.execCvtU64CDABGHEF f s
  | .cvtU64DCBAHGFE f => Sys2Proof.Machine.execCvtU64DCBAHGFE f s
  | .cvtU64GHEFCDAB f => Sys2Proof.Machine.execCvtU64GHEFCDAB f s
  | .cvtU64FEHGBADC f => Sys2Proof.Machine.execCvtU64FEHGBADC f s
  | .cvtU64EFGHABCD f => Sys2Proof.Machine.execCvtU64EFGHABCD f s
  | .cvtS64ABCDEFGH f => Sys2Proof.Machine.execCvtS64ABCDEFGH f s
  | .cvtS64HGFEDCBA f => Sys2Proof.Machine.execCvtS64HGFEDCBA f s
  | .cvtS64BADCFEHG f => Sys2Proof.Machine.execCvtS64BADCFEHG f s
  | .cvtS64CDABGHEF f => Sys2Proof.Machine.execCvtS64CDABGHEF f s
  | .cvtS64DCBAHGFE f => Sys2Proof.Machine.execCvtS64DCBAHGFE f s
  | .cvtS64GHEFCDAB f => Sys2Proof.Machine.execCvtS64GHEFCDAB f s
  | .cvtS64FEHGBADC f => Sys2Proof.Machine.execCvtS64FEHGBADC f s
  | .cvtS64EFGHABCD f => Sys2Proof.Machine.execCvtS64EFGHABCD f s
  | .cvtF64ABCDEFGH f => Sys2Proof.Machine.execCvtF64ABCDEFGH f s
  | .cvtF64HGFEDCBA f => Sys2Proof.Machine.execCvtF64HGFEDCBA f s
  | .cvtF64BADCFEHG f => Sys2Proof.Machine.execCvtF64BADCFEHG f s
  | .cvtF64CDABGHEF f => Sys2Proof.Machine.execCvtF64CDABGHEF f s
  | .cvtF64DCBAHGFE f => Sys2Proof.Machine.execCvtF64DCBAHGFE f s
  | .cvtF64GHEFCDAB f => Sys2Proof.Machine.execCvtF64GHEFCDAB f s
  | .cvtF64FEHGBADC f => Sys2Proof.Machine.execCvtF64FEHGBADC f s
  | .cvtF64EFGHABCD f => Sys2Proof.Machine.execCvtF64EFGHABCD f s

end Sys2Proof.Machine
end

