-- ==== Sys2Proof/Machine/Command.lean ====
section
/-! DEFINITION. The command of a `CMD` word (40_dispatch.md R60): the instruction its tag names, or the
error of a tag that names none. -/

namespace Sys2Proof.Machine

open Host

/-- The command performed by writing `v` to `CMD`, on a state that already holds `v` there. -/
def command (v : BitVec 32) (s : State) : Outcome State Fault Refusal :=
  match decode v with
  | .ok i => exec i s
  | .error _ => execIllegalTag (fieldsOf v) s

end Sys2Proof.Machine
end

