-- ==== Sys2Proof/Machine/HostPort.lean ====
section
/-! DEFINITION. The host's operations and the taking of the next one (20_memory.md R32 to R34, R40). -/

namespace Sys2Proof.Machine

/-- What one host operation comes to before any command runs. -/
inductive HostEffect where
  /-- The operation is complete. -/
  | done (s : State)
  /-- The operation wrote `v` to `CMD`, which is stored, and the command of `v` follows in the same
  step (20_memory.md R33; DEDUCED, log 8). -/
  | command (v : BitVec 32) (s : State)
  deriving DecidableEq, Repr

/-- One operation of the host: a read answers and changes no register (20_memory.md R32), a write
stores (R33, R34) and a write of `CMD` also begins a command (R33), a reset sets the registers
(70_reset_and_hazards.md R180). -/
def hostOp (op : HostOp) (s : State) : HostEffect :=
  match op with
  | .read k => .done { s with answers := s.answers ++ [regRead k s] }
  | .write (.cmd v) => .command v (regStore (.cmd v) s)
  | .write r => .done (regStore r s)
  | .reset => .done (resetRegs s)

/-- Take the oldest operation the host has issued; with none, the block waits and nothing changes
(20_memory.md R40, 70_reset_and_hazards.md R180; log 1). -/
def takeHostOp (s : State) : HostEffect :=
  match s.pending with
  | [] => .done s
  | op :: rest => hostOp op { s with pending := rest }

end Sys2Proof.Machine
end

