-- ==== Sys2Proof/Machine/Step.lean ====
section
/-! DEFINITION. One step: the next operation of the host, with the command it performs when it writes
`CMD`, as one indivisible step (20_memory.md R39, R40; 40_dispatch.md R60). -/

namespace Sys2Proof.Machine

open Host

def step (s : State) : Host.Outcome State Fault Refusal :=
  match takeHostOp s with
  | .done t => .next t
  | .command v t => command v t

/-- The state with a write of the `CMD` word given by the low `nbits` bits of `w` put before what the
host has pending: the very next step performs that command. It stands for the host issuing the
operation (log 1). -/
def State.withFetchWord (s : State) (nbits w : Nat) : State :=
  { s with pending := .write (.cmd (wordOfBits nbits w)) :: s.pending }

end Sys2Proof.Machine
end

