-- ==== Sys2Proof/Safety.lean ====
section
/-! DEFINITION. The terms the claims use: the invariant of every state, what a command means in full,
and what correct rounding is, said over the rational numbers and not by the model's arithmetic. -/

namespace Sys2Proof.Machine

open Host

/-- The registers a block can hold (10_state.md R16, R27; 60_exceptions.md R161): either no command has
run since reset, and `STATUS`, `CMD` and `RESULT` are still zero, or DONE is 1, bits 6:3 are 0 and ERR
is one of 0 to 4. -/
abbrev State.Inv (s : State) : Prop :=
  (s.status = 0#8 ∧ s.cmd = 0#32 ∧ s.result = 0#64) ∨
    (doneOf s.status = true ∧ s.status.extractLsb' 3 4 = 0#4 ∧ (errOf s.status).toNat ≤ 4)

/-- A safe run: every step has a next state, for as many steps as are taken. -/
def State.RunsSafely (s : State) : Prop :=
  ∀ k, ∃ t, Host.Core.run Sys2Proof.core k s = .next t

/-- The width class `W = DTYPE[7:5]` of a tag (30_encoding.md R48). -/
def widthClass (tag : BitVec 8) : Nat := tag.toNat / 32

/-- The kind `K = DTYPE[4:3]` of a tag (30_encoding.md R48). -/
def kindOf (tag : BitVec 8) : Nat := tag.toNat / 8 % 4

/-- The pattern index `P = DTYPE[2:0]` of a tag (30_encoding.md R48). -/
def patternIndex (tag : BitVec 8) : Nat := tag.toNat % 8

/-- The reserved tags as 30_encoding.md R53 spells them out by sub-field. -/
abbrev ReservedTag (tag : BitVec 8) : Prop :=
  5 ≤ widthClass tag ∨ kindOf tag = 3 ∨ (kindOf tag = 2 ∧ widthClass tag ≤ 2) ∨
    (kindOf tag = 1 ∧ widthClass tag = 0) ∨ (patternIndex tag ≠ 0 ∧ widthClass tag ≤ 1) ∨
    (1 < patternIndex tag ∧ widthClass tag = 2) ∨ (3 < patternIndex tag ∧ widthClass tag = 3)

/-- The index `P` of a 64-bit pattern (30_encoding.md R49). -/
def pat64Index : Pat64 → Nat
  | .abcdefgh => 0
  | .hgfedcba => 1
  | .badcfehg => 2
  | .cdabghef => 3
  | .dcbahgfe => 4
  | .ghefcdab => 5
  | .fehgbadc => 6
  | .efghabcd => 7

/-- The tag is `0x90 + p`, made illegal by F64_EXCLUDED_PAT naming `p` (44_float.md R134). -/
abbrev State.ExcludedTag (s : State) (tag : BitVec 8) : Prop :=
  s.f64Excluded.map (fun p => 0x90 + pat64Index p) = some tag.toNat

/-- `need`, the words a tag requires, by its width class (30_encoding.md R50). -/
def needOf (tag : BitVec 8) : Nat :=
  if widthClass tag = 3 then 2 else if widthClass tag = 4 then 4 else 1

/-- `N`, the width of a tag's member, by its width class (30_encoding.md R50). -/
def memberWidth (tag : BitVec 8) : Nat :=
  match widthClass tag with
  | 0 => 1
  | 1 => 8
  | 2 => 16
  | 3 => 32
  | _ => 64

/-- The state after `s` when a command completes with `r` in `RESULT` (40_dispatch.md R68): STATUS is
DONE and Success, the next draw moves on (log 3), all else stands. -/
def State.completed (s : State) (r : BitVec 64) : State :=
  { s with result := r, status := 0x80#8, draws := s.draws + 1 }

/-- A state whose oldest pending host operation is the write of `v` to `CMD`, after which `rest` is
pending. -/
abbrev State.Commands (s : State) (v : BitVec 32) (rest : List HostOp) : Prop :=
  s.pending = .write (.cmd v) :: rest

/-- What an instruction rule of 41_ to 44_ says of one command, whole: its tag, the errors it raises in
their order, and, on accepted operands, the value it leaves in `RESULT`; in each case the whole next
state, so everything else is unchanged. `ok` is the condition under which its tag is a valid one. -/
def CommandMeans (tag : BitVec 8) (need : Nat) (ok : State → Prop) (mk : CmdFields → Instr)
    (result : State → BitVec 64) : Prop :=
  ∀ (f : CmdFields) (s : State),
    (mk f).tag = tag ∧
    (f.rp = false ∨ f.dp = false → exec (mk f) s = .next { s with status := 0x81#8 }) ∧
    (f.rp = true → f.dp = true → f.count = 0 → exec (mk f) s = .next { s with status := 0x84#8 }) ∧
    (f.rp = true → f.dp = true → ok s → 1 ≤ f.count → f.count < need →
      exec (mk f) s = .next { s with status := 0x84#8 }) ∧
    (f.rp = true → f.dp = true → ok s → need ≤ f.count →
      exec (mk f) s = .next (s.completed (result s)))

/-- The `RESULT` of an integer command of width `n` whose decoded value is `v`. -/
def scaledResult (n : Nat) (v : Int) (s : State) : BitVec 64 :=
  (scaleInt n v s.scale (Config.nonfiniteInt s.draws)).setWidth 64

/-- The rational number a datum is; a NaN or an infinity has none and counts as 0. -/
def Datum.value : Datum → ℚ
  | .fin neg m e => (if neg then -1 else 1) * m * 2 ^ e
  | .nan => 0
  | .inf _ => 0

/-- The datum is a number: neither a NaN nor an infinity. -/
def Datum.isFinite : Datum → Bool
  | .fin _ _ _ => true
  | .nan => false
  | .inf _ => false

/-- The sign of a datum. -/
def Datum.negative : Datum → Bool
  | .fin neg _ _ => neg
  | .inf neg => neg
  | .nan => false

/-- The magnitude encoded by the bits below the sign bit, as a rational number. -/
def Format.magnitude (F : Format) (bits : Nat) : ℚ := (F.datum bits).value

/-- The least magnitude that rounds beyond the largest finite one: the largest finite magnitude
`(2 - 2^-q) * 2^bias` and half of its last place (DEDUCED from 45_scaling_numerics.md R142, R149; log 9). -/
def Format.overflow (F : Format) : ℚ := (2 - 2 ^ (-(F.fracWidth : Int) - 1)) * 2 ^ (F.bias : Int)

/-- `d` is the datum of the format nearest to the number of sign `neg` and magnitude `x`: among all
finite magnitudes of the format none is closer; of two that are equally close the one with the even
fraction is taken; from the overflow bound on it is the infinity of that sign. -/
def Format.RoundsTo (F : Format) (neg : Bool) (x : ℚ) (d : Datum) : Prop :=
  ∃ b : Nat, d = F.datum (F.signBits neg + b) ∧
    (F.overflow ≤ x → b = F.infBits) ∧
    (x < F.overflow → b < F.infBits ∧ ∀ c : Nat, c < F.infBits →
      |F.magnitude b - x| ≤ |F.magnitude c - x| ∧
        (|F.magnitude b - x| = |F.magnitude c - x| → c ≠ b → b % 2 = 0))

/-- A rational number with its fraction discarded (45_scaling_numerics.md R143). -/
def truncToInt (q : ℚ) : Int := if 0 ≤ q then ⌊q⌋ else ⌈q⌉

/-- One stage of the source's mux: the words taken in an order of word numbers 1 to 4, each optionally
swapped, the byte sequence optionally reversed (43_int64.md R101). -/
def threeStage (order : List Nat) (swapEach reverseAll : Bool) (words : List Word) : BitVec 64 :=
  let chosen := order.map fun k => words.getD (k - 1) 0
  let swapped := if swapEach then chosen.map swap16 else chosen
  let bytes := bytesOf swapped
  assemble 64 (if reverseAll then bytes.reverse else bytes)

end Sys2Proof.Machine
end

