-- ==== Sys2Proof/Certificates/Slice0/Obligations.lean ====
section
/-! DEFINITION. The statements for the provers. Each docstring says what the statement says; which rule
it formalises stands in OBLIGATIONS.json. -/

open Sys2Proof Sys2Proof.Machine Host

/-- For every well-formed instruction, with every value of BITPOS, COUNT, RP, DP and the reserved
bits, decode of encode is that instruction. -/
def Obligations.DecodeOfEncodeIsIdentity : Prop :=
  ∀ i : Instr, i.WellFormed → decode (encode i) = .ok i

/-- If a CMD word decodes to an instruction, the instruction is well formed and its encoding is that
word, all 32 bits of it, the reserved ones included. -/
def Obligations.EncodeOfDecodeIsIdentity : Prop :=
  ∀ (v : BitVec 32) (i : Instr), decode v = .ok i → i.WellFormed ∧ encode i = v

/-- Eleven CMD words that spec/30_encoding.md section 5 and spec/95_test_vectors.md write out, at
least one of each family, decode to the named instruction with the named fields. -/
def Obligations.DecoderReadsTheSpecsWords : Prop :=
  decode 0x03010F00#32 = .ok (.cvtBOOL ⟨15, 1, true, true, 0⟩) ∧
    decode 0x03C86320#32 = .ok (.cvtU8 ⟨99, 200, true, true, 0⟩) ∧
    decode 0xFF010040#32 = .ok (.cvtU16AB ⟨0, 1, true, true, 63⟩) ∧
    decode 0x02010041#32 = .ok (.cvtU16BA ⟨0, 1, false, true, 0⟩) ∧
    decode 0x03020063#32 = .ok (.cvtU32CDAB ⟨0, 2, true, true, 0⟩) ∧
    decode 0x0302006B#32 = .ok (.cvtS32CDAB ⟨0, 2, true, true, 0⟩) ∧
    decode 0x01020060#32 = .ok (.cvtU32ABCD ⟨0, 2, true, false, 0⟩) ∧
    decode 0x03020070#32 = .ok (.cvtF32ABCD ⟨0, 2, true, true, 0⟩) ∧
    decode 0x03FF0080#32 = .ok (.cvtU64ABCDEFGH ⟨0, 255, true, true, 0⟩) ∧
    decode 0x03040089#32 = .ok (.cvtS64HGFEDCBA ⟨0, 4, true, true, 0⟩) ∧
    decode 0x03040090#32 = .ok (.cvtF64ABCDEFGH ⟨0, 4, true, true, 0⟩)

/-- A word decodes to no instruction exactly when its tag is reserved by the sub-field list of R53;
213 tags are, and a tag that F64_EXCLUDED_PAT removes is one more. A command with RP = DP = 1, COUNT
at least 1 and a reserved or excluded tag leaves STATUS 0x82 (InvalidType, DONE) and changes nothing
else, whatever BITPOS and SCALE are. -/
def Obligations.ReservedTagsRaiseInvalidType : Prop :=
  (∀ v : BitVec 32, decode v = .error (.illegalTag (dtypeOf v)) ↔ ReservedTag (dtypeOf v)) ∧
    ((List.range 256).filter fun t => decide (ReservedTag (BitVec.ofNat 8 t))).length = 213 ∧
    (∀ p : Pat64, ¬ ReservedTag (BitVec.ofNat 8 (0x90 + pat64Index p))) ∧
    ∀ (s : State) (v : BitVec 32) (rest : List HostOp), s.Commands v rest →
      v.getLsbD 24 = true → v.getLsbD 25 = true → v.extractLsb' 16 8 ≠ 0#8 →
      (ReservedTag (dtypeOf v) ∨ s.ExcludedTag (dtypeOf v)) →
      step s = .next { s with pending := rest, cmd := v, status := 0x82#8 }

/-- A command whose RP or DP bit is 0 leaves STATUS 0x81 (NullPointer, DONE) whatever its tag, COUNT
and BITPOS are; x[0..3], SCALE and RESULT are unchanged. -/
def Obligations.MissingPresenceBitRaisesNullPointer : Prop :=
  ∀ (s : State) (v : BitVec 32) (rest : List HostOp), s.Commands v rest →
    v.getLsbD 24 = false ∨ v.getLsbD 25 = false →
    step s = .next { s with pending := rest, cmd := v, status := 0x81#8 }

/-- A command with RP = DP = 1 and COUNT = 0 leaves STATUS 0x84 (InsufficientRegisters, DONE) and
changes nothing else, whatever its tag (illegal ones included) and BITPOS are. -/
def Obligations.EmptySequenceRaisesInsufficientRegisters : Prop :=
  ∀ (s : State) (v : BitVec 32) (rest : List HostOp), s.Commands v rest →
    v.getLsbD 24 = true → v.getLsbD 25 = true → v.extractLsb' 16 8 = 0#8 →
    step s = .next { s with pending := rest, cmd := v, status := 0x84#8 }

/-- For a valid tag (decoded, not excluded) with RP = DP = 1: 1 <= COUNT < need leaves STATUS 0x84
and changes nothing else; COUNT >= need never leaves 0x84. And 1 <= COUNT < need happens exactly for
32-bit tags with COUNT = 1 and 64-bit tags with COUNT in 1..3. -/
def Obligations.ShortSequenceRaisesInsufficientRegisters : Prop :=
  (∀ (s : State) (v : BitVec 32) (rest : List HostOp) (i : Instr), s.Commands v rest →
      decode v = .ok i → ¬ s.ExcludedTag (dtypeOf v) →
      v.getLsbD 24 = true → v.getLsbD 25 = true →
      (1 ≤ (v.extractLsb' 16 8).toNat → (v.extractLsb' 16 8).toNat < needOf (dtypeOf v) →
        step s = .next { s with pending := rest, cmd := v, status := 0x84#8 }) ∧
      (needOf (dtypeOf v) ≤ (v.extractLsb' 16 8).toNat →
        ∃ t, step s = .next t ∧ t.status ≠ 0x84#8)) ∧
    ∀ (tag : BitVec 8) (c : Nat), (1 ≤ c ∧ c < needOf tag) ↔
      ((widthClass tag = 3 ∧ c = 1) ∨ (widthClass tag = 4 ∧ 1 ≤ c ∧ c ≤ 3))

/-- Every CMD write has a next state, whose STATUS is: 0x81 if RP = 0 or DP = 0; else 0x84 if COUNT
= 0; else 0x82 if the tag is reserved or excluded; else 0x84 if COUNT < need; else 0x83 if the tag
is CVT.BOOL and BITPOS > 15; else 0x80. -/
def Obligations.FirstHoldingCheckWins : Prop :=
  ∀ (s : State) (v : BitVec 32) (rest : List HostOp), s.Commands v rest →
    ∃ t, step s = .next t ∧ t.status =
      if v.getLsbD 24 = false ∨ v.getLsbD 25 = false then 0x81#8
      else if v.extractLsb' 16 8 = 0#8 then 0x84#8
      else if ReservedTag (dtypeOf v) ∨ s.ExcludedTag (dtypeOf v) then 0x82#8
      else if (v.extractLsb' 16 8).toNat < needOf (dtypeOf v) then 0x84#8
      else if dtypeOf v = 0#8 ∧ 15 < (v.extractLsb' 8 8).toNat then 0x83#8
      else 0x80#8

/-- If a CMD write ends with a STATUS other than 0x80, the next state is the old one with the host
operation taken, CMD holding the written value and STATUS written: DONE is 1, ERR is 1 to 4; RESULT,
x[0..3], SCALE and everything else are unchanged. -/
def Obligations.FailedCommandChangesOnlyStatus : Prop :=
  ∀ (s t : State) (v : BitVec 32) (rest : List HostOp), s.Commands v rest → step s = .next t →
    t.status ≠ 0x80#8 →
    t = { s with pending := rest, cmd := v, status := t.status } ∧ doneOf t.status = true ∧
      t.status.extractLsb' 3 4 = 0#4 ∧ 1 ≤ (errOf t.status).toNat ∧ (errOf t.status).toNat ≤ 4

/-- If a CMD write ends with STATUS 0x80, the next state is the old one with the host operation
taken, CMD holding the written value, STATUS and RESULT written and the model's draw counter moved
on (log 3); RESULT[63:N] is zero, N the width of the tag's member. -/
def Obligations.SuccessfulCommandPacksMember : Prop :=
  ∀ (s t : State) (v : BitVec 32) (rest : List HostOp), s.Commands v rest → step s = .next t →
    t.status = 0x80#8 →
    t = State.completed { s with pending := rest, cmd := v } t.result ∧
      t.result.toNat < 2 ^ memberWidth (dtypeOf v)

/-- For every state and every number of steps the run answers a next state: nothing in the block is
stuck. -/
def Obligations.EveryRunIsSafe : Prop :=
  ∀ s : State, (∃ t, step s = .next t) ∧ s.RunsSafely

/-- From every state, as many steps as operations are pending lead to a state with none pending, in
which a further step changes nothing. That the operations stand in the state and that the block
waits by a step that changes nothing is the model's choice (log 1). -/
def Obligations.RunEndsWhenItsOperationsArePerformed : Prop :=
  ∀ s : State, ∃ t, Host.Core.run Sys2Proof.core s.pending.length s = .next t ∧
    t.pending = [] ∧ step t = .next t

/-- A step that is no reset leaves x[i] unchanged unless it performs the host's write of x[i], for
each i, and SCALE unchanged unless it performs the host's write of SCALE; a command in particular
changes none of them. -/
def Obligations.OperandRegistersPersist : Prop :=
  ∀ s t : State, step s = .next t → s.pending.head? ≠ some .reset →
    ((∀ w, s.pending.head? ≠ some (.write (.x0 w))) → t.x0 = s.x0) ∧
    ((∀ w, s.pending.head? ≠ some (.write (.x1 w))) → t.x1 = s.x1) ∧
    ((∀ w, s.pending.head? ≠ some (.write (.x2 w))) → t.x2 = s.x2) ∧
    ((∀ w, s.pending.head? ≠ some (.write (.x3 w))) → t.x3 = s.x3) ∧
    ((∀ w, s.pending.head? ≠ some (.write (.scale w))) → t.scale = s.scale)

/-- For every instruction of the table: if exec answers a next state, x[0..3], SCALE, CMD, the
host's side and F64_EXCLUDED_PAT are unchanged; and unless STATUS is 0x80, RESULT and the draw
counter (log 3) are unchanged too. There is no memory. -/
def Obligations.InstructionsWriteOnlyStatusAndResult : Prop :=
  ∀ (i : Instr) (s t : State), exec i s = .next t →
    t.x0 = s.x0 ∧ t.x1 = s.x1 ∧ t.x2 = s.x2 ∧ t.x3 = s.x3 ∧ t.scale = s.scale ∧ t.cmd = s.cmd ∧
      t.pending = s.pending ∧ t.answers = s.answers ∧ t.f64Excluded = s.f64Excluded ∧
      (t.status ≠ 0x80#8 → t.result = s.result ∧ t.draws = s.draws)

/-- For all 43 instructions and every old value of STATUS, exec gives the same outcome: the code of
an earlier command is overwritten. -/
def Obligations.ErrorCodeIsNotSticky : Prop :=
  ∀ (i : Instr) (s : State) (old : BitVec 8), exec i { s with status := old } = exec i s

/-- Two states that agree on x[0..3], SCALE, the draw counter (log 3) and F64_EXCLUDED_PAT (log 4),
and differ in anything else, give the same STATUS to the same instruction; on success the same
RESULT; on an error each keeps its own RESULT. -/
def Obligations.OutcomeDependsOnInputsAlone : Prop :=
  ∀ (i : Instr) (s u t w : State), s.x0 = u.x0 → s.x1 = u.x1 → s.x2 = u.x2 → s.x3 = u.x3 →
    s.scale = u.scale → s.draws = u.draws → s.f64Excluded = u.f64Excluded →
    exec i s = .next t → exec i u = .next w →
    t.status = w.status ∧ (t.status = 0x80#8 → t.result = w.result) ∧
      (t.status ≠ 0x80#8 → t.result = s.result ∧ w.result = u.result)

/-- Two instructions with the same tag and the same RP and DP, whose COUNTs are equal or both at
least need, and, for CVT.BOOL only, with the same BITPOS, have the same outcome in every state. -/
def Obligations.FieldsNotConsultedHaveNoEffect : Prop :=
  ∀ (i j : Instr) (s : State), i.tag = j.tag → i.fields.rp = j.fields.rp →
    i.fields.dp = j.fields.dp →
    (i.fields.count = j.fields.count ∨
      (needOf i.tag ≤ i.fields.count ∧ needOf i.tag ≤ j.fields.count)) →
    (i.tag = 0#8 → i.fields.bitpos = j.fields.bitpos) → exec i s = exec j s

/-- For a tag of need 1, x[1], x[2], x[3] may hold anything; for a tag of need 2, x[2] and x[3]; for
CVT.BOOL, SCALE: the next state is the same but for those registers, which keep what they hold. -/
def Obligations.RegistersNotReadHaveNoEffect : Prop :=
  ∀ (i : Instr) (s t : State), exec i s = .next t →
    (needOf i.tag = 1 → ∀ a b c : Word,
      exec i { s with x1 := a, x2 := b, x3 := c } = .next { t with x1 := a, x2 := b, x3 := c }) ∧
    (needOf i.tag = 2 → ∀ b c : Word,
      exec i { s with x2 := b, x3 := c } = .next { t with x2 := b, x3 := c }) ∧
    (i.tag = 0#8 → ∀ a : BitVec 64,
      exec i { s with scale := a } = .next { t with scale := a })

/-- Two CMD values that differ only in bits 31:26 decode to instructions of the same tag or both to
none, and writing one or the other leaves the same state but for CMD, which holds the value written.
-/
def Obligations.ReservedBitsAreStoredAndIgnored : Prop :=
  ∀ (s t : State) (v w : BitVec 32) (rest : List HostOp), v.setWidth 26 = w.setWidth 26 →
    step { s with pending := .write (.cmd v) :: rest } = .next t →
    t.cmd = v ∧ step { s with pending := .write (.cmd w) :: rest } = .next { t with cmd := w } ∧
      lookupTag (dtypeOf v) = lookupTag (dtypeOf w)

/-- If an instruction is performed twice in a row, the second leaves the same STATUS; a failing one
leaves the state as the first left it; and where the RESULT of the first does not depend on the draw
of an open value (log 3), the second leaves the same RESULT. -/
def Obligations.RepeatedCommandRepeatsItsOutputs : Prop :=
  ∀ (i : Instr) (s t u : State), exec i s = .next t → exec i t = .next u →
    u.status = t.status ∧ (t.status ≠ 0x80#8 → u = t) ∧
      ((∀ d, ∃ t', exec i { s with draws := d } = .next t' ∧ t'.result = t.result) →
        u.result = t.result)

/-- If the oldest pending operation writes v to CMD and v decodes to i, the step is exec of i on the
state with that operation taken and v stored in CMD. If v decodes to nothing, the step is the
command of an illegal tag on that state. That operations are taken from a list in the state is the
model's choice (log 1). -/
def Obligations.StepRunsTheDecodedInstruction : Prop :=
  ∀ (s : State) (v : BitVec 32) (rest : List HostOp), s.Commands v rest →
    (∀ i, decode v = .ok i → step s = exec i { s with pending := rest, cmd := v }) ∧
    (∀ e, decode v = .error e →
      step s = execIllegalTag (fieldsOf v) { s with pending := rest, cmd := v })

/-- For every well-formed instruction and state, the step after its word is placed with
withFetchWord is exec of that instruction on the state with the word in CMD. Placing stands for the
host issuing the write: the model's choice (log 1). -/
def Obligations.PlacedWordRunsNext : Prop :=
  ∀ (i : Instr) (s : State), i.WellFormed →
    step (s.withFetchWord 32 (encode i).toNat) = exec i { s with cmd := encode i }

/-- Each of the eight reads takes its operation and appends the register's value at its width to the
host's answers (log 2), changing no register; each of the five plain writes takes its operation and
stores, changing nothing else. -/
def Obligations.HostAccessesReadAndStoreWholeRegisters : Prop :=
  ∀ (s : State) (rest : List HostOp),
    (∀ k, s.pending = .read k :: rest → step s = .next { s with
      pending := rest
      answers := s.answers ++ [match k with
        | .x0 => .x0 s.x0
        | .x1 => .x1 s.x1
        | .x2 => .x2 s.x2
        | .x3 => .x3 s.x3
        | .scale => .scale s.scale
        | .cmd => .cmd s.cmd
        | .status => .status s.status
        | .result => .result s.result] }) ∧
    (∀ v, s.pending = .write (.x0 v) :: rest → step s = .next { s with pending := rest, x0 := v }) ∧
    (∀ v, s.pending = .write (.x1 v) :: rest → step s = .next { s with pending := rest, x1 := v }) ∧
    (∀ v, s.pending = .write (.x2 v) :: rest → step s = .next { s with pending := rest, x2 := v }) ∧
    (∀ v, s.pending = .write (.x3 v) :: rest → step s = .next { s with pending := rest, x3 := v }) ∧
    (∀ v, s.pending = .write (.scale v) :: rest →
      step s = .next { s with pending := rest, scale := v })

/-- A write of STATUS or RESULT only takes its operation: no register changes and nothing is raised.
No step other than a command or a reset changes STATUS or RESULT. -/
def Obligations.StatusAndResultWritesAreIgnored : Prop :=
  (∀ (s : State) (rest : List HostOp),
      (∀ v, s.pending = .write (.status v) :: rest → step s = .next { s with pending := rest }) ∧
      (∀ v, s.pending = .write (.result v) :: rest → step s = .next { s with pending := rest })) ∧
    ∀ s t : State, step s = .next t → s.pending.head? ≠ some .reset →
      (∀ v, s.pending.head? ≠ some (.write (.cmd v))) → t.status = s.status ∧ t.result = s.result

/-- For each register a host write stores in (x[0..3], SCALE, CMD): a write of a value followed by a
read of the same register answers that value (for CMD although the write performs a command,
whatever its outcome). -/
def Obligations.ReadAfterWriteAnswersTheWrittenValue : Prop :=
  ∀ (s : State) (k : Reg) (r : RegVal) (rest : List HostOp),
    ((∃ v, k = .x0 ∧ r = .x0 v) ∨ (∃ v, k = .x1 ∧ r = .x1 v) ∨ (∃ v, k = .x2 ∧ r = .x2 v) ∨
      (∃ v, k = .x3 ∧ r = .x3 v) ∨ (∃ v, k = .scale ∧ r = .scale v) ∨
      (∃ v, k = .cmd ∧ r = .cmd v)) →
    s.pending = .write r :: .read k :: rest →
    ∃ t u, step s = .next t ∧ step t = .next u ∧ u.pending = rest ∧
      u.answers = s.answers ++ [r]

/-- In the reset state x[0..3] are 0, SCALE is 0x3FF0000000000000, CMD, STATUS and RESULT are 0.
(The model's own fields are not in this statement.) -/
def Obligations.ResetStateHoldsTheStatedValues : Prop :=
  State.reset.x0 = 0x0000#16 ∧ State.reset.x1 = 0x0000#16 ∧ State.reset.x2 = 0x0000#16 ∧
    State.reset.x3 = 0x0000#16 ∧ State.reset.scale = 0x3FF0000000000000#64 ∧
    State.reset.cmd = 0x00000000#32 ∧ State.reset.status = 0x00#8 ∧
    State.reset.result = 0x0000000000000000#64

/-- From every state whose oldest pending operation is a reset, the step leaves exactly the reset
values in the eight registers (so DONE is 0 and no command has run) and the operation taken. That
the model's own fields (logs 1 to 4) stay as they were is the model's choice. With nothing pending a
step changes nothing: the block waits (log 1). A step that is no reset, no write and no command
changes no register. -/
def Obligations.ResetSetsEveryRegisterAndRunsNothing : Prop :=
  (∀ (s : State) (rest : List HostOp), s.pending = .reset :: rest →
      step s = .next { s with
        x0 := 0#16, x1 := 0#16, x2 := 0#16, x3 := 0#16, scale := 0x3FF0000000000000#64
        cmd := 0#32, status := 0#8, result := 0#64, pending := rest }) ∧
    (∀ s : State, s.pending = [] → step s = .next s) ∧
    ∀ (s t : State), step s = .next t → s.pending.head? ≠ some .reset →
      (∀ r, s.pending.head? ≠ some (.write r)) →
      ∀ k, regRead k t = regRead k s

/-- The invariant that every step keeps holds of the reset state. -/
def Obligations.ResetStateMeetsTheInvariant : Prop :=
  State.reset.Inv

/-- For every state with the invariant: either STATUS, CMD and RESULT are all zero (no command since
reset), or DONE is 1, STATUS[6:3] is 0 and ERR is 0 to 4 (Unknown and the codes 6, 7 never occur).
If the step answers a next state, the invariant holds there. -/
def Obligations.EveryStepKeepsTheStatusInvariant : Prop :=
  ∀ s t : State, s.Inv → step s = .next t → t.Inv

/-- A step that is no reset never clears DONE; a step that writes CMD leaves DONE 1. -/
def Obligations.DoneIsClearedByResetOnly : Prop :=
  ∀ s t : State, step s = .next t →
    (doneOf s.status = true → s.pending.head? ≠ some .reset → doneOf t.status = true) ∧
    (∀ v, s.pending.head? = some (.write (.cmd v)) → doneOf t.status = true)

/-- CVT.BOOL has tag 0x00. RP = 0 or DP = 0 gives STATUS 0x81; else COUNT = 0 gives 0x84; else
BITPOS > 15 gives 0x83; in each case nothing else changes. Otherwise RESULT is (x[0] >> BITPOS) mod
2, STATUS 0x80, and only the draw counter (log 3) changes besides. SCALE is not consulted. -/
def Obligations.BooleanCommand : Prop :=
  ∀ (f : CmdFields) (s : State),
    (Instr.cvtBOOL f).tag = 0x00#8 ∧
    (f.rp = false ∨ f.dp = false → exec (.cvtBOOL f) s = .next { s with status := 0x81#8 }) ∧
    (f.rp = true → f.dp = true → f.count = 0 →
      exec (.cvtBOOL f) s = .next { s with status := 0x84#8 }) ∧
    (f.rp = true → f.dp = true → 1 ≤ f.count → 15 < f.bitpos →
      exec (.cvtBOOL f) s = .next { s with status := 0x83#8 }) ∧
    (f.rp = true → f.dp = true → 1 ≤ f.count → f.bitpos ≤ 15 →
      exec (.cvtBOOL f) s =
        .next (s.completed (BitVec.ofNat 64 (s.x0.toNat / 2 ^ f.bitpos % 2))))

/-- CVT.U8 (tag 0x20) and CVT.S8 (tag 0x28), need 1: their errors in order with nothing else
changed; on accepted operands RESULT is scale_int(v, 8) zero-extended, v the low byte of x[0] as
unsigned (U8), or minus 256 when above 127 (S8); STATUS 0x80; nothing else changes but the draw
counter (log 3). -/
def Obligations.EightBitCommands : Prop :=
  CommandMeans 0x20#8 1 (fun _ => True) .cvtU8
      (fun s => scaledResult 8 (s.x0.toNat % 256 : Nat) s) ∧
    CommandMeans 0x28#8 1 (fun _ => True) .cvtS8
      (fun s => scaledResult 8
        (if 127 < s.x0.toNat % 256 then ((s.x0.toNat % 256 : Nat) : Int) - 256
          else (s.x0.toNat % 256 : Nat)) s)

/-- CVT.U16.AB, .BA, CVT.S16.AB, .BA (tags 0x40, 0x41, 0x48, 0x49), need 1: their errors in order
with nothing else changed; on accepted operands RESULT is scale_int(v, 16) zero-extended, v the word
x[0] (AB) or {x[0][7:0], x[0][15:8]} (BA), unsigned (U16) or minus 65536 when above 32767 (S16);
STATUS 0x80; nothing else changes but the draw counter (log 3). -/
def Obligations.SixteenBitCommands : Prop :=
  CommandMeans 0x40#8 1 (fun _ => True) .cvtU16AB (fun s => scaledResult 16 s.x0.toNat s) ∧
    CommandMeans 0x41#8 1 (fun _ => True) .cvtU16BA
      (fun s => scaledResult 16 (s.x0.toNat % 256 * 256 + s.x0.toNat / 256 : Nat) s) ∧
    CommandMeans 0x48#8 1 (fun _ => True) .cvtS16AB
      (fun s => scaledResult 16
        (if 32767 < s.x0.toNat then (s.x0.toNat : Int) - 65536 else s.x0.toNat) s) ∧
    CommandMeans 0x49#8 1 (fun _ => True) .cvtS16BA
      (fun s => scaledResult 16
        (if 32767 < s.x0.toNat % 256 * 256 + s.x0.toNat / 256
          then ((s.x0.toNat % 256 * 256 + s.x0.toNat / 256 : Nat) : Int) - 65536
          else (s.x0.toNat % 256 * 256 + s.x0.toNat / 256 : Nat)) s)

/-- Each command of CVT.U32, with its tag and need 2: its errors in order with nothing else changed;
on accepted operands RESULT is the raw value of its pattern, written in words as the rule gives it,
read as an unsigned integer, through scale_int(v, 32), zero-extended; STATUS 0x80; nothing else
changes but the draw counter (log 3). -/
def Obligations.Unsigned32BitCommands : Prop :=
  CommandMeans 0x60#8 2 (fun _ => True) .cvtU32ABCD
      (fun s => scaledResult 32 (s.x0 ++ s.x1 : BitVec 32).toNat s) ∧
    CommandMeans 0x61#8 2 (fun _ => True) .cvtU32DCBA
      (fun s => scaledResult 32 (swap16 s.x1 ++ swap16 s.x0 : BitVec 32).toNat s) ∧
    CommandMeans 0x62#8 2 (fun _ => True) .cvtU32BADC
      (fun s => scaledResult 32 (swap16 s.x0 ++ swap16 s.x1 : BitVec 32).toNat s) ∧
    CommandMeans 0x63#8 2 (fun _ => True) .cvtU32CDAB
      (fun s => scaledResult 32 (s.x1 ++ s.x0 : BitVec 32).toNat s)

/-- Each command of CVT.S32, with its tag and need 2: its errors in order with nothing else changed;
on accepted operands RESULT is the raw value of its pattern, written in words as the rule gives it,
read in two's complement, through scale_int(v, 32), zero-extended; STATUS 0x80; nothing else changes
but the draw counter (log 3). -/
def Obligations.Signed32BitCommands : Prop :=
  CommandMeans 0x68#8 2 (fun _ => True) .cvtS32ABCD
      (fun s => scaledResult 32 (s.x0 ++ s.x1 : BitVec 32).toInt s) ∧
    CommandMeans 0x69#8 2 (fun _ => True) .cvtS32DCBA
      (fun s => scaledResult 32 (swap16 s.x1 ++ swap16 s.x0 : BitVec 32).toInt s) ∧
    CommandMeans 0x6A#8 2 (fun _ => True) .cvtS32BADC
      (fun s => scaledResult 32 (swap16 s.x0 ++ swap16 s.x1 : BitVec 32).toInt s) ∧
    CommandMeans 0x6B#8 2 (fun _ => True) .cvtS32CDAB
      (fun s => scaledResult 32 (s.x1 ++ s.x0 : BitVec 32).toInt s)

/-- Each command of CVT.U64, with its tag and need 4: its errors in order with nothing else changed;
on accepted operands RESULT is the raw value of its pattern, written in words as the rule gives it,
read as an unsigned integer, through scale_int(v, 64); STATUS 0x80; nothing else changes but the
draw counter (log 3). -/
def Obligations.Unsigned64BitCommands : Prop :=
  CommandMeans 0x80#8 4 (fun _ => True) .cvtU64ABCDEFGH
      (fun s => scaledResult 64 (s.x0 ++ s.x1 ++ s.x2 ++ s.x3 : BitVec 64).toNat s) ∧
    CommandMeans 0x81#8 4 (fun _ => True) .cvtU64HGFEDCBA
      (fun s => scaledResult 64 (swap16 s.x3 ++ swap16 s.x2 ++ swap16 s.x1 ++ swap16 s.x0 : BitVec 64).toNat s) ∧
    CommandMeans 0x82#8 4 (fun _ => True) .cvtU64BADCFEHG
      (fun s => scaledResult 64 (swap16 s.x0 ++ swap16 s.x1 ++ swap16 s.x2 ++ swap16 s.x3 : BitVec 64).toNat s) ∧
    CommandMeans 0x83#8 4 (fun _ => True) .cvtU64CDABGHEF
      (fun s => scaledResult 64 (s.x1 ++ s.x0 ++ s.x3 ++ s.x2 : BitVec 64).toNat s) ∧
    CommandMeans 0x84#8 4 (fun _ => True) .cvtU64DCBAHGFE
      (fun s => scaledResult 64 (swap16 s.x1 ++ swap16 s.x0 ++ swap16 s.x3 ++ swap16 s.x2 : BitVec 64).toNat s) ∧
    CommandMeans 0x85#8 4 (fun _ => True) .cvtU64GHEFCDAB
      (fun s => scaledResult 64 (s.x3 ++ s.x2 ++ s.x1 ++ s.x0 : BitVec 64).toNat s) ∧
    CommandMeans 0x86#8 4 (fun _ => True) .cvtU64FEHGBADC
      (fun s => scaledResult 64 (swap16 s.x2 ++ swap16 s.x3 ++ swap16 s.x0 ++ swap16 s.x1 : BitVec 64).toNat s) ∧
    CommandMeans 0x87#8 4 (fun _ => True) .cvtU64EFGHABCD
      (fun s => scaledResult 64 (s.x2 ++ s.x3 ++ s.x0 ++ s.x1 : BitVec 64).toNat s)

/-- Each command of CVT.S64, with its tag and need 4: its errors in order with nothing else changed;
on accepted operands RESULT is the raw value of its pattern, written in words as the rule gives it,
read in two's complement, through scale_int(v, 64); STATUS 0x80; nothing else changes but the draw
counter (log 3). -/
def Obligations.Signed64BitCommands : Prop :=
  CommandMeans 0x88#8 4 (fun _ => True) .cvtS64ABCDEFGH
      (fun s => scaledResult 64 (s.x0 ++ s.x1 ++ s.x2 ++ s.x3 : BitVec 64).toInt s) ∧
    CommandMeans 0x89#8 4 (fun _ => True) .cvtS64HGFEDCBA
      (fun s => scaledResult 64 (swap16 s.x3 ++ swap16 s.x2 ++ swap16 s.x1 ++ swap16 s.x0 : BitVec 64).toInt s) ∧
    CommandMeans 0x8A#8 4 (fun _ => True) .cvtS64BADCFEHG
      (fun s => scaledResult 64 (swap16 s.x0 ++ swap16 s.x1 ++ swap16 s.x2 ++ swap16 s.x3 : BitVec 64).toInt s) ∧
    CommandMeans 0x8B#8 4 (fun _ => True) .cvtS64CDABGHEF
      (fun s => scaledResult 64 (s.x1 ++ s.x0 ++ s.x3 ++ s.x2 : BitVec 64).toInt s) ∧
    CommandMeans 0x8C#8 4 (fun _ => True) .cvtS64DCBAHGFE
      (fun s => scaledResult 64 (swap16 s.x1 ++ swap16 s.x0 ++ swap16 s.x3 ++ swap16 s.x2 : BitVec 64).toInt s) ∧
    CommandMeans 0x8D#8 4 (fun _ => True) .cvtS64GHEFCDAB
      (fun s => scaledResult 64 (s.x3 ++ s.x2 ++ s.x1 ++ s.x0 : BitVec 64).toInt s) ∧
    CommandMeans 0x8E#8 4 (fun _ => True) .cvtS64FEHGBADC
      (fun s => scaledResult 64 (swap16 s.x2 ++ swap16 s.x3 ++ swap16 s.x0 ++ swap16 s.x1 : BitVec 64).toInt s) ∧
    CommandMeans 0x8F#8 4 (fun _ => True) .cvtS64EFGHABCD
      (fun s => scaledResult 64 (s.x2 ++ s.x3 ++ s.x0 ++ s.x1 : BitVec 64).toInt s)

/-- Each command of CVT.F32, with its tag and need 2: its errors in order with nothing else changed;
on accepted operands RESULT is the raw value of its pattern, written in words as the rule gives it,
through scale_f32 (NAN_RESULT by draw, log 3), zero-extended; STATUS 0x80; nothing else changes but
the draw counter (log 3). -/
def Obligations.Float32Commands : Prop :=
  CommandMeans 0x70#8 2 (fun _ => True) .cvtF32ABCD
      (fun s => (scaleF32 (s.x0 ++ s.x1 : BitVec 32) s.scale
        (Config.nanResult s.draws)).setWidth 64) ∧
    CommandMeans 0x71#8 2 (fun _ => True) .cvtF32DCBA
      (fun s => (scaleF32 (swap16 s.x1 ++ swap16 s.x0 : BitVec 32) s.scale
        (Config.nanResult s.draws)).setWidth 64) ∧
    CommandMeans 0x72#8 2 (fun _ => True) .cvtF32BADC
      (fun s => (scaleF32 (swap16 s.x0 ++ swap16 s.x1 : BitVec 32) s.scale
        (Config.nanResult s.draws)).setWidth 64) ∧
    CommandMeans 0x73#8 2 (fun _ => True) .cvtF32CDAB
      (fun s => (scaleF32 (s.x1 ++ s.x0 : BitVec 32) s.scale
        (Config.nanResult s.draws)).setWidth 64)

/-- Each command of CVT.F64, with its tag and need 4, where F64_EXCLUDED_PAT does not name its
pattern: its errors in order with nothing else changed; on accepted operands RESULT is scale_f64 of
the raw value of its pattern, written in words as the rule gives it (NAN_RESULT by draw, log 3);
STATUS 0x80; nothing else changes but the draw counter. -/
def Obligations.Float64Commands : Prop :=
  CommandMeans 0x90#8 4 (fun s => s.f64Excluded ≠ some .abcdefgh) .cvtF64ABCDEFGH
      (fun s => scaleF64 (s.x0 ++ s.x1 ++ s.x2 ++ s.x3 : BitVec 64) s.scale
        (Config.nanResult s.draws)) ∧
    CommandMeans 0x91#8 4 (fun s => s.f64Excluded ≠ some .hgfedcba) .cvtF64HGFEDCBA
      (fun s => scaleF64 (swap16 s.x3 ++ swap16 s.x2 ++ swap16 s.x1 ++ swap16 s.x0 : BitVec 64) s.scale
        (Config.nanResult s.draws)) ∧
    CommandMeans 0x92#8 4 (fun s => s.f64Excluded ≠ some .badcfehg) .cvtF64BADCFEHG
      (fun s => scaleF64 (swap16 s.x0 ++ swap16 s.x1 ++ swap16 s.x2 ++ swap16 s.x3 : BitVec 64) s.scale
        (Config.nanResult s.draws)) ∧
    CommandMeans 0x93#8 4 (fun s => s.f64Excluded ≠ some .cdabghef) .cvtF64CDABGHEF
      (fun s => scaleF64 (s.x1 ++ s.x0 ++ s.x3 ++ s.x2 : BitVec 64) s.scale
        (Config.nanResult s.draws)) ∧
    CommandMeans 0x94#8 4 (fun s => s.f64Excluded ≠ some .dcbahgfe) .cvtF64DCBAHGFE
      (fun s => scaleF64 (swap16 s.x1 ++ swap16 s.x0 ++ swap16 s.x3 ++ swap16 s.x2 : BitVec 64) s.scale
        (Config.nanResult s.draws)) ∧
    CommandMeans 0x95#8 4 (fun s => s.f64Excluded ≠ some .ghefcdab) .cvtF64GHEFCDAB
      (fun s => scaleF64 (s.x3 ++ s.x2 ++ s.x1 ++ s.x0 : BitVec 64) s.scale
        (Config.nanResult s.draws)) ∧
    CommandMeans 0x96#8 4 (fun s => s.f64Excluded ≠ some .fehgbadc) .cvtF64FEHGBADC
      (fun s => scaleF64 (swap16 s.x2 ++ swap16 s.x3 ++ swap16 s.x0 ++ swap16 s.x1 : BitVec 64) s.scale
        (Config.nanResult s.draws)) ∧
    CommandMeans 0x97#8 4 (fun s => s.f64Excluded ≠ some .efghabcd) .cvtF64EFGHABCD
      (fun s => scaleF64 (s.x2 ++ s.x3 ++ s.x0 ++ s.x1 : BitVec 64) s.scale
        (Config.nanResult s.draws))

/-- For each of the eight float64 instructions: where F64_EXCLUDED_PAT names its pattern, RP = DP =
1 and COUNT >= 1, it leaves STATUS 0x82 and changes nothing else, whatever COUNT is. That the
parameter stands in the state is the model's choice (log 4). -/
def Obligations.ExcludedFloat64TagIsInvalidType : Prop :=
  ∀ (f : CmdFields) (s : State), f.rp = true → f.dp = true → 1 ≤ f.count →
    (s.f64Excluded = some .abcdefgh →
      exec (.cvtF64ABCDEFGH f) s = .next { s with status := 0x82#8 }) ∧
    (s.f64Excluded = some .hgfedcba →
      exec (.cvtF64HGFEDCBA f) s = .next { s with status := 0x82#8 }) ∧
    (s.f64Excluded = some .badcfehg →
      exec (.cvtF64BADCFEHG f) s = .next { s with status := 0x82#8 }) ∧
    (s.f64Excluded = some .cdabghef →
      exec (.cvtF64CDABGHEF f) s = .next { s with status := 0x82#8 }) ∧
    (s.f64Excluded = some .dcbahgfe →
      exec (.cvtF64DCBAHGFE f) s = .next { s with status := 0x82#8 }) ∧
    (s.f64Excluded = some .ghefcdab →
      exec (.cvtF64GHEFCDAB f) s = .next { s with status := 0x82#8 }) ∧
    (s.f64Excluded = some .fehgbadc →
      exec (.cvtF64FEHGBADC f) s = .next { s with status := 0x82#8 }) ∧
    (s.f64Excluded = some .efghabcd →
      exec (.cvtF64EFGHABCD f) s = .next { s with status := 0x82#8 })

/-- ord16 AB is the word, ord16 BA is {w[7:0], w[15:8]}; these are the byte selections [A, B] and
[B, A]; swap16 exchanges the two bytes; BA twice is the identity. (That last clause is the spec's
own inference in R83, marked "derived: swap16(swap16(w)) = w".) -/
def Obligations.Mux16KeepsOrSwapsTheBytes : Prop :=
  ∀ w : Word, ord16 .ab w = w ∧ ord16 .ba w = w.extractLsb' 0 8 ++ w.extractLsb' 8 8 ∧
    ord16 .ab w = hi8 w ++ lo8 w ∧ ord16 .ba w = lo8 w ++ hi8 w ∧
    ord16 .ba (ord16 .ba w) = w ∧ swap16 w = ord16 .ba w ∧
    perm16 .ab = [0, 1] ∧ perm16 .ba = [1, 0]

/-- For every width N at least 1 and every N-bit v: uint(v) is its unsigned value; sint_N(v) is
uint(v) when v[N-1] is 0 and uint(v) - 2^N when it is 1, and lies in -2^(N-1) .. 2^(N-1) - 1. -/
def Obligations.IntegerReadingsAreUnsignedAndTwosComplement : Prop :=
  ∀ (n : Nat) (v : BitVec (n + 1)),
    uint v = v.toNat ∧ (v.getLsbD n = false → sint v = v.toNat) ∧
    (v.getLsbD n = true → sint v = (v.toNat : Int) - 2 ^ (n + 1)) ∧
    -(2 ^ n : Int) ≤ sint v ∧ sint v < 2 ^ n

/-- For A, B the high and low byte of x[0] and C, D of x[1]: ABCD, DCBA, BADC, CDAB deliver
{A,B,C,D}, {D,C,B,A}, {B,A,D,C}, {C,D,A,B}, which are the words as the rule gives them; the byte-
select list of each is i XOR 0, 3, 1, 2 for i = 0 to 3. (The XOR form is the spec's own inference in
R90, marked "derived: from the byte-select lists".) -/
def Obligations.Mux32PatternsByName : Prop :=
  (∀ x0 x1 : Word,
      reorder32 .abcd x0 x1 = hi8 x0 ++ lo8 x0 ++ hi8 x1 ++ lo8 x1 ∧
      reorder32 .dcba x0 x1 = lo8 x1 ++ hi8 x1 ++ lo8 x0 ++ hi8 x0 ∧
      reorder32 .badc x0 x1 = lo8 x0 ++ hi8 x0 ++ lo8 x1 ++ hi8 x1 ∧
      reorder32 .cdab x0 x1 = hi8 x1 ++ lo8 x1 ++ hi8 x0 ++ lo8 x0 ∧
      reorder32 .abcd x0 x1 = x0 ++ x1 ∧ reorder32 .dcba x0 x1 = swap16 x1 ++ swap16 x0 ∧
      reorder32 .badc x0 x1 = swap16 x0 ++ swap16 x1 ∧ reorder32 .cdab x0 x1 = x1 ++ x0) ∧
    perm32 .abcd = (List.range 4).map (· ^^^ 0) ∧ perm32 .dcba = (List.range 4).map (· ^^^ 3) ∧
    perm32 .badc = (List.range 4).map (· ^^^ 1) ∧ perm32 .cdab = (List.range 4).map (· ^^^ 2)

/-- reorder32(DCBA, x0, x1) = reorder32(ABCD, swap16 x1, swap16 x0); and for every pattern,
reordering the two words of the reordered value gives {x0, x1}. -/
def Obligations.Mux32ReversalAndInvolution : Prop :=
  (∀ x0 x1 : Word, reorder32 .dcba x0 x1 = reorder32 .abcd (swap16 x1) (swap16 x0)) ∧
    ∀ (p : Pat32) (x0 x1 : Word),
      reorder32 p ((reorder32 p x0 x1).extractLsb' 16 16) ((reorder32 p x0 x1).extractLsb' 0 16) =
        x0 ++ x1

/-- Each of the eight patterns delivers the words the rule gives (swap16 exchanging a word's bytes),
which is the byte order its name lists; its byte-select list is i XOR its key 0, 7, 1, 2, 3, 6, 5, 4
for i = 0 to 7. (The XOR form is the spec's own inference in R100, marked "derived: from the pattern
names".) -/
def Obligations.Mux64PatternsByName : Prop :=
  (∀ x0 x1 x2 x3 : Word,
      reorder64 .abcdefgh x0 x1 x2 x3 = x0 ++ x1 ++ x2 ++ x3 ∧
      reorder64 .hgfedcba x0 x1 x2 x3 = swap16 x3 ++ swap16 x2 ++ swap16 x1 ++ swap16 x0 ∧
      reorder64 .badcfehg x0 x1 x2 x3 = swap16 x0 ++ swap16 x1 ++ swap16 x2 ++ swap16 x3 ∧
      reorder64 .cdabghef x0 x1 x2 x3 = x1 ++ x0 ++ x3 ++ x2 ∧
      reorder64 .dcbahgfe x0 x1 x2 x3 = swap16 x1 ++ swap16 x0 ++ swap16 x3 ++ swap16 x2 ∧
      reorder64 .ghefcdab x0 x1 x2 x3 = x3 ++ x2 ++ x1 ++ x0 ∧
      reorder64 .fehgbadc x0 x1 x2 x3 = swap16 x2 ++ swap16 x3 ++ swap16 x0 ++ swap16 x1 ∧
      reorder64 .efghabcd x0 x1 x2 x3 = x2 ++ x3 ++ x0 ++ x1) ∧
    (∀ w : Word, swap16 w = lo8 w ++ hi8 w ∧ w = hi8 w ++ lo8 w) ∧
    [Pat64.abcdefgh, .hgfedcba, .badcfehg, .cdabghef, .dcbahgfe, .ghefcdab, .fehgbadc,
        .efghabcd].map perm64 =
      [0, 7, 1, 2, 3, 6, 5, 4].map fun key => (List.range 8).map (· ^^^ key)

/-- For each 64-bit pattern the mux equals word selection, optional per-word swap and optional full
reversal with both triples of the corrected table; and reordering the four words of the reordered
value gives {x0, x1, x2, x3}. -/
def Obligations.Mux64AgreesWithThreeStageMechanism : Prop :=
  ∀ x0 x1 x2 x3 : Word,
    reorder64 .abcdefgh x0 x1 x2 x3 = threeStage [1, 2, 3, 4] false false [x0, x1, x2, x3] ∧
    reorder64 .abcdefgh x0 x1 x2 x3 = threeStage [4, 3, 2, 1] true true [x0, x1, x2, x3] ∧
    reorder64 .hgfedcba x0 x1 x2 x3 = threeStage [4, 3, 2, 1] true false [x0, x1, x2, x3] ∧
    reorder64 .hgfedcba x0 x1 x2 x3 = threeStage [1, 2, 3, 4] false true [x0, x1, x2, x3] ∧
    reorder64 .badcfehg x0 x1 x2 x3 = threeStage [1, 2, 3, 4] true false [x0, x1, x2, x3] ∧
    reorder64 .badcfehg x0 x1 x2 x3 = threeStage [4, 3, 2, 1] false true [x0, x1, x2, x3] ∧
    reorder64 .cdabghef x0 x1 x2 x3 = threeStage [2, 1, 4, 3] false false [x0, x1, x2, x3] ∧
    reorder64 .cdabghef x0 x1 x2 x3 = threeStage [3, 4, 1, 2] true true [x0, x1, x2, x3] ∧
    reorder64 .dcbahgfe x0 x1 x2 x3 = threeStage [2, 1, 4, 3] true false [x0, x1, x2, x3] ∧
    reorder64 .dcbahgfe x0 x1 x2 x3 = threeStage [3, 4, 1, 2] false true [x0, x1, x2, x3] ∧
    reorder64 .ghefcdab x0 x1 x2 x3 = threeStage [4, 3, 2, 1] false false [x0, x1, x2, x3] ∧
    reorder64 .ghefcdab x0 x1 x2 x3 = threeStage [1, 2, 3, 4] true true [x0, x1, x2, x3] ∧
    reorder64 .fehgbadc x0 x1 x2 x3 = threeStage [3, 4, 1, 2] true false [x0, x1, x2, x3] ∧
    reorder64 .fehgbadc x0 x1 x2 x3 = threeStage [2, 1, 4, 3] false true [x0, x1, x2, x3] ∧
    reorder64 .efghabcd x0 x1 x2 x3 = threeStage [3, 4, 1, 2] false false [x0, x1, x2, x3] ∧
    reorder64 .efghabcd x0 x1 x2 x3 = threeStage [2, 1, 4, 3] true true [x0, x1, x2, x3] ∧
    ∀ p : Pat64, reorder64 p ((reorder64 p x0 x1 x2 x3).extractLsb' 48 16)
        ((reorder64 p x0 x1 x2 x3).extractLsb' 32 16) ((reorder64 p x0 x1 x2 x3).extractLsb' 16 16)
        ((reorder64 p x0 x1 x2 x3).extractLsb' 0 16) = x0 ++ x1 ++ x2 ++ x3

/-- For every integer of magnitude at most 2^64: i2f64(v) is finite and is the nearest binary64
datum of its sign, ties to the even fraction; it equals v when |v| < 2^53 and whenever v is m * 2^k
with |m| < 2^53; its value is a multiple of 2^(k-52) for 2^k <= |v| < 2^(k+1); i2f64(0) is +0.0;
2^64 - 1 converts to 2^64 and 2^63 - 1 to 2^63. -/
def Obligations.IntegerConversionIsNearestEven : Prop :=
  (∀ v : Int, v.natAbs ≤ 2 ^ 64 →
      (i2f64 v).isFinite = true ∧ binary64.RoundsTo (decide (v < 0)) v.natAbs (i2f64 v) ∧
      (v.natAbs < 2 ^ 53 → (i2f64 v).value = v) ∧
      (∀ (m : Int) (k : Nat), m.natAbs < 2 ^ 53 → v = m * 2 ^ k → (i2f64 v).value = v) ∧
      (∀ k : Nat, 2 ^ k ≤ v.natAbs → v.natAbs < 2 ^ (k + 1) →
        ∃ n : Int, (i2f64 v).value = n * 2 ^ ((k : Int) - 52))) ∧
    i2f64 0 = f64 0#64 ∧ (i2f64 (2 ^ 64 - 1)).value = 2 ^ 64 ∧ (i2f64 (2 ^ 63 - 1)).value = 2 ^ 63

/-- For any two binary64 encodings: finite operands give the exact real product rounded to the
nearest binary64 datum, ties to even, subnormals kept, infinity from the overflow bound on, with the
exclusive-or of the signs (zeros included); a NaN operand gives a NaN; an infinity times zero, in
either order, gives a NaN; an infinity times any other non-NaN gives the infinity of the exclusive-
or sign. (R142 with the exact overflow bound, (2 - 2^-53) * 2^1023, that log 9 deduces from it.) -/
def Obligations.ProductIsCorrectlyRounded : Prop :=
  ∀ a b : BitVec 64,
    ((f64 a).isFinite = true → (f64 b).isFinite = true →
      binary64.RoundsTo ((f64 a).negative != (f64 b).negative) |(f64 a).value * (f64 b).value|
        (fmul64 (f64 a) (f64 b))) ∧
    (f64 a = .nan ∨ f64 b = .nan → fmul64 (f64 a) (f64 b) = .nan) ∧
    (∀ n, f64 a = .inf n → (f64 b).isFinite = true → (f64 b).value = 0 →
      fmul64 (f64 a) (f64 b) = .nan ∧ fmul64 (f64 b) (f64 a) = .nan) ∧
    (∀ n, f64 a = .inf n → (f64 b).isFinite = true → (f64 b).value ≠ 0 →
      fmul64 (f64 a) (f64 b) = .inf (n != (f64 b).negative) ∧
      fmul64 (f64 b) (f64 a) = .inf (n != (f64 b).negative)) ∧
    (∀ n k, f64 a = .inf n → f64 b = .inf k → fmul64 (f64 a) (f64 b) = .inf (n != k)) ∧
    (f64 a).negative = (a.msb && f64 a != .nan)

/-- For every binary32 encoding: a finite datum widens to a binary64 datum of the same value and
sign (zeros and subnormals included); an infinity to the infinity of its sign; a NaN to a NaN. -/
def Obligations.Binary32WidensExactly : Prop :=
  ∀ a : BitVec 32,
    ((f32 a).isFinite = true → (∃ b : BitVec 64, f32to64 (f32 a) = f64 b) ∧
      (f32to64 (f32 a)).isFinite = true ∧ (f32to64 (f32 a)).value = (f32 a).value ∧
      (f32to64 (f32 a)).negative = (f32 a).negative) ∧
    (∀ n, f32 a = .inf n → f32to64 (f32 a) = .inf n) ∧
    (f32 a = .nan → f32to64 (f32 a) = .nan)

/-- For every binary64 encoding: a finite datum narrows to the nearest binary32 datum of its sign,
ties to even, gradually underflowing, the infinity of its sign from the overflow bound on; an
infinity keeps its sign; a NaN maps to a NaN. (R149 with the exact overflow bound, (2 - 2^-24) *
2^127, that log 9 deduces from it.) -/
def Obligations.Binary64NarrowsToNearestEven : Prop :=
  ∀ p : BitVec 64,
    ((f64 p).isFinite = true →
      binary32.RoundsTo (f64 p).negative |(f64 p).value| (f64to32 (f64 p))) ∧
    (∀ n, f64 p = .inf n → f64to32 (f64 p) = .inf n) ∧ (f64 p = .nan → f64to32 (f64 p) = .nan)

/-- For every sign, significand and power of two, trunc is the floor of a non-negative value and the
ceiling of a negative one. -/
def Obligations.TruncationDiscardsTheFraction : Prop :=
  ∀ (neg : Bool) (m : Nat) (e : Int),
    trunc neg m e = truncToInt (Datum.value (.fin neg m e))

/-- For every width N and integer t: uint(wrap_N(t)) is t mod 2^N; for 0 <= t < 2^N it is t; for a
width of at least 1 and -2^(N-1) <= t < 2^(N-1), sint_N(wrap_N(t)) is t. -/
def Obligations.WrapIsReductionModuloTwoToTheN : Prop :=
  (∀ (n : Nat) (t : Int), ((wrap n t).toNat : Int) = t % 2 ^ n ∧
      (0 ≤ t → t < 2 ^ n → ((wrap n t).toNat : Int) = t)) ∧
    ∀ (n : Nat) (t : Int), -(2 ^ n : Int) ≤ t → t < 2 ^ n → sint (wrap (n + 1) t) = t

/-- For every width N, value and SCALE whose product is finite and at least 2^(52+N) in magnitude,
scale_int gives 0. (The spec marks this as its own inference from its rules.) -/
def Obligations.HugeProductsWrapToZero : Prop :=
  ∀ (n : Nat) (v : Int) (scale free : BitVec 64), (scaledProduct v scale).isFinite = true →
    2 ^ (52 + n) ≤ |(scaledProduct v scale).value| → scaleInt n v scale free = 0#n

/-- With p the product of i2f64(v) and SCALE: if p is finite, the result denotes trunc(p) mod 2^N;
if p is a NaN or an infinity, the result is the low N bits of the free value NONFINITE_INT. (R140
and R145 let it be any N-bit value; taking the low N bits of one 64-bit free value is the model's
DESIGN CHOICE, log 3.) -/
def Obligations.ScaleIntTruncatesAndWrapsTheProduct : Prop :=
  ∀ (n : Nat) (v : Int) (scale free : BitVec 64),
    ((fmul64 (i2f64 v) (f64 scale)).isFinite = true →
      ((scaleInt n v scale free).toNat : Int) =
        truncToInt (fmul64 (i2f64 v) (f64 scale)).value % 2 ^ n) ∧
    ((fmul64 (i2f64 v) (f64 scale)).isFinite = false →
      scaleInt n v scale free = free.setWidth n)

/-- For every integer of magnitude at most 2^64: the product is not finite exactly when SCALE is a
NaN, SCALE is infinite, or the exact product of i2f64(v) and a finite SCALE reaches the overflow
bound; with |SCALE| below 2^960 that bound is not reached; and then every N-bit value, N at most 64,
is the result for some free value. (The exact overflow bound is the one log 9 deduces from R142.) -/
def Obligations.NonfiniteProductHappensExactlyWhen : Prop :=
  ∀ (v : Int) (scale : BitVec 64), v.natAbs ≤ 2 ^ 64 →
    ((scaledProduct v scale).isFinite = false ↔
      f64 scale = .nan ∨ (∃ n, f64 scale = .inf n) ∨
        ((f64 scale).isFinite = true ∧
          binary64.overflow ≤ |(i2f64 v).value * (f64 scale).value|)) ∧
    ((f64 scale).isFinite = true → |(f64 scale).value| < 2 ^ 960 →
      (scaledProduct v scale).isFinite = true) ∧
    ((scaledProduct v scale).isFinite = false → ∀ (n : Nat) (b : BitVec n), n ≤ 64 →
      ∃ free, scaleInt n v scale free = b)

/-- With SCALE = 1.0: every 8-, 16- and 32-bit raw value comes back, unsigned and signed; a 64-bit
raw value comes back when its value as the tag reads it has at most 53 significant bits. (The
identity is the spec's inference from its rules.) -/
def Obligations.ScaleOneIsTheIdentityWithin53Bits : Prop :=
  ∀ free : BitVec 64,
    (∀ b : BitVec 8, scaleInt 8 (uint b) 0x3FF0000000000000#64 free = b ∧
      scaleInt 8 (sint b) 0x3FF0000000000000#64 free = b) ∧
    (∀ b : BitVec 16, scaleInt 16 (uint b) 0x3FF0000000000000#64 free = b ∧
      scaleInt 16 (sint b) 0x3FF0000000000000#64 free = b) ∧
    (∀ b : BitVec 32, scaleInt 32 (uint b) 0x3FF0000000000000#64 free = b ∧
      scaleInt 32 (sint b) 0x3FF0000000000000#64 free = b) ∧
    ∀ (b : BitVec 64) (m : Int) (k : Nat), m.natAbs < 2 ^ 53 →
      (uint b = m * 2 ^ k → scaleInt 64 (uint b) 0x3FF0000000000000#64 free = b) ∧
      (sint b = m * 2 ^ k → scaleInt 64 (sint b) 0x3FF0000000000000#64 free = b)

/-- With SCALE = 1.0: an unsigned raw value from 0xFFFFFFFFFFFFFC00 on gives 0; a signed raw value
from 0x7FFFFFFFFFFFFE00 to 0x7FFFFFFFFFFFFFFF gives the bits 0x8000000000000000; 2^53 + 1 gives
2^53. (The spec marks these as its inference.) -/
def Obligations.ScaleOnePrecisionCorners : Prop :=
  ∀ (b free : BitVec 64),
    (0xFFFFFFFFFFFFFC00 ≤ b.toNat → scaleInt 64 (uint b) 0x3FF0000000000000#64 free = 0#64) ∧
    (0x7FFFFFFFFFFFFE00 ≤ b.toNat → b.toNat ≤ 0x7FFFFFFFFFFFFFFF →
      scaleInt 64 (sint b) 0x3FF0000000000000#64 free = 0x8000000000000000#64) ∧
    scaleInt 64 (2 ^ 53 + 1) 0x3FF0000000000000#64 free = 0x0020000000000000#64

/-- For every width: v = 0 gives 0 for every finite SCALE; SCALE = +0.0 or -0.0 gives 0 for every
integer of magnitude at most 2^64. -/
def Obligations.ZeroLawsOfScaling : Prop :=
  ∀ (n : Nat) (scale free : BitVec 64),
    ((f64 scale).isFinite = true → scaleInt n 0 scale free = 0#n) ∧
    ∀ v : Int, v.natAbs ≤ 2 ^ 64 → scaleInt n v 0x0000000000000000#64 free = 0#n ∧
      scaleInt n v 0x8000000000000000#64 free = 0#n

/-- scale_f32(raw): with p the binary64 product of the widened raw and SCALE and r the binary32
datum nearest to p: if r is no NaN the result encodes r and does not depend on the free value; if it
is, the result is NAN_RESULT_32, its forced bits over the free value. scale_f64(raw) the same in
binary64 without the narrowing. With SCALE = 1.0 a raw that is no NaN comes back bit for bit. (R147
lets a NaN result be any quiet NaN; the form "free value with the bits 0x7FC00000, or
0x7FF8000000000000, forced to 1" is the model's DESIGN CHOICE, log 3.) -/
def Obligations.ScaledFloatEncodesTheRoundedProduct : Prop :=
  (∀ (raw : BitVec 32) (scale free : BitVec 64),
      let r := f64to32 (fmul64 (f32to64 (f32 raw)) (f64 scale))
      (r ≠ .nan → f32 (scaleF32 raw scale free) = r ∧
        ∀ free', scaleF32 raw scale free' = scaleF32 raw scale free) ∧
      (r = .nan → scaleF32 raw scale free = free.setWidth 32 ||| 0x7FC00000#32) ∧
      (f32 raw ≠ .nan → scaleF32 raw 0x3FF0000000000000#64 free = raw)) ∧
    ∀ (raw scale free : BitVec 64),
      let p := fmul64 (f64 raw) (f64 scale)
      (p ≠ .nan → f64 (scaleF64 raw scale free) = p ∧
        ∀ free', scaleF64 raw scale free' = scaleF64 raw scale free) ∧
      (p = .nan → scaleF64 raw scale free = free ||| 0x7FF8000000000000#64) ∧
      (f64 raw ≠ .nan → scaleF64 raw 0x3FF0000000000000#64 free = raw)

/-- The product of a float command is a NaN exactly when an operand is a NaN or one is zero and the
other infinite; the member then has exponent all ones and top fraction bit 1 for every free value,
and every quiet NaN of the format is the member for some free value. For binary32 and binary64. -/
def Obligations.NanResultIsSomeQuietNan : Prop :=
  (∀ (raw : BitVec 32) (scale : BitVec 64),
      let a := f32 raw
      let b := f64 scale
      (f64to32 (fmul64 (f32to64 a) b) = .nan ↔ a = .nan ∨ b = .nan ∨
        (a.isFinite = true ∧ a.value = 0 ∧ ∃ n, b = .inf n) ∨
        (b.isFinite = true ∧ b.value = 0 ∧ ∃ n, a = .inf n)) ∧
      (f64to32 (fmul64 (f32to64 a) b) = .nan →
        (∀ free, scaleF32 raw scale free &&& 0x7FC00000#32 = 0x7FC00000#32) ∧
        ∀ q : BitVec 32, q &&& 0x7FC00000#32 = 0x7FC00000#32 →
          ∃ free, scaleF32 raw scale free = q)) ∧
    ∀ raw scale : BitVec 64,
      let a := f64 raw
      let b := f64 scale
      (fmul64 a b = .nan ↔ a = .nan ∨ b = .nan ∨
        (a.isFinite = true ∧ a.value = 0 ∧ ∃ n, b = .inf n) ∨
        (b.isFinite = true ∧ b.value = 0 ∧ ∃ n, a = .inf n)) ∧
      (fmul64 a b = .nan →
        (∀ free, scaleF64 raw scale free &&& 0x7FF8000000000000#64 = 0x7FF8000000000000#64) ∧
        ∀ q : BitVec 64, q &&& 0x7FF8000000000000#64 = 0x7FF8000000000000#64 →
          ∃ free, scaleF64 raw scale free = q)
end

