-- ==== Sys2Proof/Laws/Decode.lean ====
section
/-! SUPPORT. The `CMD` word of fields and a tag, read back: the facts under the two round trips. -/

namespace Sys2Proof

/-- A `CMD` word as a number: each field times the weight of its place. -/
theorem cmdWord_toNat (f : CmdFields) (t : BitVec 8) : (cmdWord f t).toNat =
    t.toNat + 256 * (f.bitpos % 256) + 65536 * (f.count % 256) +
      16777216 * f.rp.toNat + 33554432 * f.dp.toNat + 67108864 * f.reserved.toNat := by
  have := t.isLt
  have := f.reserved.isLt
  have := f.rp.toNat_lt
  have := f.dp.toNat_lt
  simp only [cmdWord, BitVec.toNat_ofNat]
  omega

/-- A bit of a vector as a digit of its value. -/
theorem getLsbD_eq_decide {n : Nat} (v : BitVec n) (k : Nat) :
    v.getLsbD k = decide (v.toNat / 2 ^ k % 2 = 1) := by
  rw [BitVec.getLsbD, Nat.testBit_eq_decide_div_mod_eq]

/-- A digit test as a digit. -/
theorem toNat_decide_odd (n : Nat) : (decide (n % 2 = 1)).toNat = n % 2 := by
  rcases Nat.mod_two_eq_zero_or_one n with h | h <;> simp [h]

/-- The tag of a word is the tag it was made with. -/
@[simp] theorem dtypeOf_cmdWord (f : CmdFields) (t : BitVec 8) : dtypeOf (cmdWord f t) = t := by
  apply BitVec.eq_of_toNat_eq
  have := t.isLt
  simp only [dtypeOf, BitVec.extractLsb'_toNat, cmdWord_toNat, Nat.shiftRight_zero]
  omega

/-- The fields of a word are the fields it was made with, where they fit. -/
theorem fieldsOf_cmdWord {f : CmdFields} (hb : f.bitpos < 256) (hc : f.count < 256)
    (t : BitVec 8) : fieldsOf (cmdWord f t) = f := by
  have h0 := cmdWord_toNat f t
  obtain ⟨b, c, rp, dp, r⟩ := f
  have := t.isLt
  have := r.isLt
  have := rp.toNat_lt
  have := dp.toNat_lt
  simp only at hb hc h0
  simp only [fieldsOf, CmdFields.mk.injEq, BitVec.extractLsb'_toNat, Nat.shiftRight_eq_div_pow,
    getLsbD_eq_decide, h0]
  refine ⟨by omega, by omega, ?_, ?_, ?_⟩
  · cases rp <;> simp <;> omega
  · cases dp <;> simp <;> omega
  · apply BitVec.eq_of_toNat_eq
    simp only [BitVec.extractLsb'_toNat, Nat.shiftRight_eq_div_pow, h0]
    omega

/-- A word is made of its own fields and tag. -/
theorem cmdWord_fieldsOf (v : BitVec 32) : cmdWord (fieldsOf v) (dtypeOf v) = v := by
  apply BitVec.eq_of_toNat_eq
  have := v.isLt
  simp only [cmdWord_toNat, fieldsOf, dtypeOf, BitVec.extractLsb'_toNat,
    Nat.shiftRight_eq_div_pow, getLsbD_eq_decide, toNat_decide_odd]
  omega

/-- The presence bits of a decoded word. -/
@[simp] theorem fieldsOf_rp (v : BitVec 32) : (fieldsOf v).rp = v.getLsbD 24 := rfl
@[simp] theorem fieldsOf_dp (v : BitVec 32) : (fieldsOf v).dp = v.getLsbD 25 := rfl

/-- `COUNT` and `BITPOS` of a decoded word. -/
@[simp] theorem fieldsOf_count (v : BitVec 32) :
    (fieldsOf v).count = (v.extractLsb' 16 8).toNat := rfl
@[simp] theorem fieldsOf_bitpos (v : BitVec 32) :
    (fieldsOf v).bitpos = (v.extractLsb' 8 8).toNat := rfl

end Sys2Proof
end

