-- ==== Sys2Proof/Laws/Numerics.lean ====
section
/-! SUPPORT. Rounding, said once: the encodings of a format and the rational magnitudes they denote,
`Format.round` as correct rounding to nearest, ties to even, with overflow, and what it does to
values the format can hold. -/

namespace Sys2Proof.Machine

/-- `N` is the integer nearest to `y`, ties to even. -/
def Nearest (N : Nat) (y : ℚ) : Prop := |(N : ℚ) - y| ≤ 1 / 2 ∧ (|(N : ℚ) - y| = 1 / 2 → N % 2 = 0)

/-- Dividing by a power of two with `roundShift` is rounding to nearest, ties to even. -/
theorem roundShift_nearest (m sh : Nat) : Nearest (roundShift m sh) (m / 2 ^ sh) := by
  have hpos : 0 < 2 ^ sh := by positivity
  have hposQ : (0 : ℚ) < 2 ^ sh := by positivity
  have hdiv := Nat.div_add_mod m (2 ^ sh)
  have hlt := Nat.mod_lt m hpos
  have hq : (m : ℚ) / 2 ^ sh = (m / 2 ^ sh : Nat) + (m % 2 ^ sh : Nat) / 2 ^ sh := by
    rw [eq_comm, ← sub_eq_zero]; field_simp
    have : (2 : ℚ) ^ sh * (m / 2 ^ sh : Nat) + (m % 2 ^ sh : Nat) = m := by exact_mod_cast hdiv
    linarith
  rw [hq]
  simp only [roundShift]
  generalize m / 2 ^ sh = q at *
  generalize m % 2 ^ sh = r at *
  split
  · rename_i h
    have hd : ((q + 1 : Nat) : ℚ) - (q + r / 2 ^ sh) = 1 - r / 2 ^ sh := by push_cast; ring
    have h1 : (1 : ℚ) / 2 ≤ r / 2 ^ sh := by
      rw [div_le_div_iff₀ (by norm_num) hposQ]
      have : (2:ℚ) ^ sh ≤ 2 * r := by
        have : 2 ^ sh ≤ 2 * r := by omega
        exact_mod_cast this
      linarith
    have h2 : (r : ℚ) / 2 ^ sh < 1 := by
      rw [div_lt_one hposQ]; exact_mod_cast hlt
    have hab : |((q + 1 : Nat) : ℚ) - (q + r / 2 ^ sh)| = 1 - r / 2 ^ sh := by
      rw [hd, abs_of_pos (by linarith)]
    refine ⟨by rw [hab]; linarith, ?_⟩
    rw [hab]
    intro h3
    have h4 : (r : ℚ) / 2 ^ sh = 1 / 2 := by linarith
    rw [div_eq_div_iff (by positivity) (by norm_num)] at h4
    have h5 : r * 2 = 1 * 2 ^ sh := by exact_mod_cast h4
    omega
  · rename_i h
    have hd : (q : ℚ) - (q + r / 2 ^ sh) = - (r / 2 ^ sh) := by ring
    have h1 : (r : ℚ) / 2 ^ sh ≤ 1 / 2 := by
      rw [div_le_div_iff₀ hposQ (by norm_num)]
      have : 2 * (r:ℚ) ≤ 2 ^ sh := by
        have : 2 * r ≤ 2 ^ sh := by omega
        exact_mod_cast this
      linarith
    have h0 : (0 : ℚ) ≤ r / 2 ^ sh := by positivity
    have hab : |(q : ℚ) - (q + r / 2 ^ sh)| = r / 2 ^ sh := by
      rw [hd, abs_neg, abs_of_nonneg h0]
    refine ⟨by rw [hab]; linarith, ?_⟩
    rw [hab]
    intro h4
    rw [div_eq_div_iff (by positivity) (by norm_num)] at h4
    have h5 : r * 2 = 1 * 2 ^ sh := by exact_mod_cast h4
    omega

/-- The rounded significand is the integer nearest to the exact one. -/
theorem roundAt_nearest (m : Nat) (e q : Int) : Nearest (roundAt m e q) (m * 2 ^ (e - q)) := by
  unfold roundAt
  split
  · rename_i h
    have : ((m * 2 ^ (e - q).toNat : Nat) : ℚ) = m * 2 ^ (e - q) := by
      push_cast
      rw [← zpow_natCast, Int.toNat_of_nonneg (by omega)]
    rw [Nearest, this]; norm_num
  · rename_i h
    have : (m : ℚ) * 2 ^ (e - q) = m / 2 ^ (q - e).toNat := by
      rw [← zpow_natCast, Int.toNat_of_nonneg (by omega), div_eq_mul_inv, ← zpow_neg]; congr 2; ring
    rw [this]; exact roundShift_nearest _ _

/-- No integer is closer than the nearest one. -/
theorem Nearest.le {N : Nat} {y : ℚ} (h : Nearest N y) (j : ℤ) : |(N : ℚ) - y| ≤ |(j : ℚ) - y| := by
  by_cases hj : j = N
  · rw [hj]; norm_cast
  · have h1 : (1 : ℚ) ≤ |(j : ℚ) - N| := by
      have : (1 : ℤ) ≤ |j - N| := Int.one_le_abs (by omega)
      exact_mod_cast this
    have h2 : |(j : ℚ) - N| ≤ |(j : ℚ) - y| + |(N : ℚ) - y| := by
      rw [abs_sub_comm (N : ℚ) y]; exact abs_sub_le _ _ _
    have := h.1
    linarith

/-- Where another integer is as close, the nearest one chosen is even. -/
theorem Nearest.even {N : Nat} {y : ℚ} (h : Nearest N y) {j : ℤ} (hj : j ≠ N)
    (he : |(N : ℚ) - y| = |(j : ℚ) - y|) : N % 2 = 0 := by
  have h1 : (1 : ℚ) ≤ |(j : ℚ) - N| := by
    have : (1 : ℤ) ≤ |j - N| := Int.one_le_abs (by omega)
    exact_mod_cast this
  have h2 : |(j : ℚ) - N| ≤ |(j : ℚ) - y| + |(N : ℚ) - y| := by
    rw [abs_sub_comm (N : ℚ) y]; exact abs_sub_le _ _ _
  have := h.1
  exact h.2 (by linarith)

variable {F : Format}

/-- A format with at least two exponent bits and one fraction bit, as both formats have. -/
abbrev Format.Sound (F : Format) : Prop := 2 ≤ F.expWidth ∧ 1 ≤ F.fracWidth

/-- `b` is `n` units at the place `k` above the finest one. -/
def Format.Places (F : Format) (b k n : Nat) : Prop :=
  b = k * 2 ^ F.fracWidth + n ∧ n ≤ 2 ^ (F.fracWidth + 1) ∧ (k = 0 ∨ 2 ^ F.fracWidth ≤ n)

/-- Every encoding has its places. -/
theorem Format.places_of (F : Format) (b : Nat) :
    ∃ k n, F.Places b k n ∧ n < 2 ^ (F.fracWidth + 1) := by
  have hp : 0 < 2 ^ F.fracWidth := by positivity
  have h := Nat.div_add_mod b (2 ^ F.fracWidth)
  have hm := Nat.mod_lt b hp
  have h2 : 2 ^ (F.fracWidth + 1) = 2 * 2 ^ F.fracWidth := by ring
  by_cases h0 : b / 2 ^ F.fracWidth = 0
  · refine ⟨0, b, ⟨by simp, ?_, .inl rfl⟩, ?_⟩ <;> rw [h0] at h <;> omega
  · obtain ⟨k, hk⟩ := Nat.exists_eq_succ_of_ne_zero h0
    refine ⟨k, 2 ^ F.fracWidth + b % 2 ^ F.fracWidth, ⟨?_, by omega, .inr (by omega)⟩, by omega⟩
    rw [hk] at h
    rw [← h, Nat.succ_eq_add_one]; ring_nf
    simp

/-- The magnitude of a finite encoding, from its places. -/
theorem Format.magnitude_of_places {b k n : Nat} (hF : F.Sound) (hb : b < F.infBits)
    (h : F.Places b k n) : F.magnitude b = n * 2 ^ (F.minExp + k) := by
  obtain ⟨h1, h2, h3⟩ := h
  have hp : 0 < 2 ^ F.fracWidth := by positivity
  have h2p : 2 ^ (F.fracWidth + 1) = 2 * 2 ^ F.fracWidth := by ring
  have hE : 2 ^ 2 ≤ 2 ^ F.expWidth := Nat.pow_le_pow_right (by decide) hF.1
  have hdiv : b / 2 ^ F.fracWidth < 2 ^ F.expWidth - 1 := by
    rw [Nat.div_lt_iff_lt_mul hp]; exact hb
  have hneg : b / 2 ^ (F.expWidth + F.fracWidth) = 0 := by
    apply Nat.div_eq_of_lt
    rw [pow_add]; exact lt_of_lt_of_le hb (Nat.mul_le_mul_right _ (by omega))
  have key : ∀ e m : Nat, m < 2 ^ F.fracWidth → b = e * 2 ^ F.fracWidth + m →
      F.magnitude b = if e = 0 then (m : ℚ) * 2 ^ F.minExp
        else (2 ^ F.fracWidth + m : Nat) * 2 ^ (F.minExp + (e - 1)) := by
    intro e m hm hbe
    have he : b / 2 ^ F.fracWidth = e := by
      rw [hbe, Nat.add_comm, Nat.add_mul_div_right _ _ hp, Nat.div_eq_of_lt hm]; omega
    have hmod : b % 2 ^ F.fracWidth = m := by
      rw [hbe, Nat.add_comm, Nat.add_mul_mod_self_right, Nat.mod_eq_of_lt hm]
    rw [he] at hdiv
    unfold Format.magnitude Format.datum
    rw [hneg, he, hmod, Nat.mod_eq_of_lt (a := e) (by omega)]
    by_cases h0 : e = 0
    · simp [h0, Datum.value]
    · simp [h0, Datum.value]
      rw [if_neg (by omega)]
      simp
  rcases h3 with rfl | h3
  · by_cases hn : n < 2 ^ F.fracWidth
    · rw [key 0 n hn h1]; simp
    · by_cases hn2 : n < 2 ^ (F.fracWidth + 1)
      · rw [key 1 (n - 2 ^ F.fracWidth) (by omega) (by omega)]
        rw [if_neg (by decide), Nat.add_sub_cancel' (by omega)]; simp
      · have : n = 2 ^ (F.fracWidth + 1) := by omega
        rw [key 2 0 hp (by omega), this]
        rw [if_neg (by decide)]
        push_cast
        rw [zpow_add₀ (by norm_num), pow_succ]; norm_num; ring
  · by_cases hn2 : n < 2 ^ (F.fracWidth + 1)
    · rw [key (k + 1) (n - 2 ^ F.fracWidth) (by omega) (by rw [Nat.add_mul]; omega)]
      rw [if_neg (by omega), Nat.add_sub_cancel' (by omega)]; simp
    · have : n = 2 ^ (F.fracWidth + 1) := by omega
      rw [key (k + 2) 0 hp (by rw [Nat.add_mul]; omega), this]
      rw [if_neg (by omega)]
      push_cast
      rw [show F.minExp + ((k : ℤ) + 2 - 1) = F.minExp + k + 1 by ring,
        zpow_add₀ (by norm_num) _ 1, pow_succ]
      norm_num; ring


/-- The significand in units of its last place. -/
theorem Format.lastPlace_bounds (F : Format) {m : Nat} (hm : m ≠ 0) (e : Int) :
    (m : ℚ) * 2 ^ (e - F.lastPlace m e) < 2 ^ (F.fracWidth + 1) ∧
      (F.lastPlace m e ≠ F.minExp → (2 : ℚ) ^ F.fracWidth ≤ m * 2 ^ (e - F.lastPlace m e)) ∧
      F.minExp ≤ F.lastPlace m e := by
  have h1 : (2 : ℚ) ^ (Nat.log2 m) ≤ m := by exact_mod_cast Nat.log2_self_le hm
  have h2 : (m : ℚ) < 2 ^ (Nat.log2 m + 1) := by exact_mod_cast Nat.lt_log2_self
  refine ⟨?_, ?_, le_max_left _ _⟩
  · have hq : (Nat.log2 m : Int) + e - F.fracWidth ≤ F.lastPlace m e := le_max_right _ _
    calc (m : ℚ) * 2 ^ (e - F.lastPlace m e) < 2 ^ (Nat.log2 m + 1) * 2 ^ (e - F.lastPlace m e) := by
          apply mul_lt_mul_of_pos_right h2; positivity
      _ = 2 ^ ((Nat.log2 m : Int) + 1 + (e - F.lastPlace m e)) := by
          rw [zpow_add₀ (by norm_num)]; norm_cast
      _ ≤ 2 ^ ((F.fracWidth : Int) + 1) := by
          apply zpow_le_zpow_right₀ (by norm_num); omega
      _ = 2 ^ (F.fracWidth + 1) := by norm_cast
  · intro hne
    have hq : F.lastPlace m e = (Nat.log2 m : Int) + e - F.fracWidth := by
      unfold Format.lastPlace at hne ⊢
      rcases max_choice F.minExp ((Nat.log2 m : Int) + e - F.fracWidth) with h | h
      · exact absurd h hne
      · exact h
    calc (2 : ℚ) ^ F.fracWidth = 2 ^ (Nat.log2 m) * 2 ^ (e - F.lastPlace m e) := by
          rw [hq, ← zpow_natCast, ← zpow_natCast, ← zpow_add₀ (by norm_num)]; congr 1; omega
      _ ≤ m * 2 ^ (e - F.lastPlace m e) := by
          apply mul_le_mul_of_nonneg_right h1; positivity

/-- The least magnitude that overflows, in units of the coarsest place. -/
theorem Format.overflow_eq (hF : F.Sound) :
    F.overflow = (2 ^ (F.fracWidth + 1) - 1 / 2) * 2 ^ (F.minExp + (2 ^ F.expWidth - 3 : Nat)) := by
  have hE : 2 ^ F.expWidth = 2 * 2 ^ (F.expWidth - 1) := by
    rw [← pow_succ']; congr 1; omega
  have hE2 : 2 ^ 1 ≤ 2 ^ (F.expWidth - 1) := Nat.pow_le_pow_right (by decide) (by omega)
  have hx : F.minExp + (2 ^ F.expWidth - 3 : Nat) = (F.bias : Int) - F.fracWidth := by
    unfold Format.minExp Format.bias; omega
  rw [hx, Format.overflow, zpow_sub₀ (by norm_num), zpow_sub₀ (by norm_num), zpow_neg, zpow_natCast]
  field_simp
  ring

/-- Infinity is encoded one above the largest significand at the coarsest place. -/
theorem Format.infBits_eq (hF : F.Sound) :
    F.infBits = (2 ^ F.expWidth - 3) * 2 ^ F.fracWidth + 2 ^ (F.fracWidth + 1) := by
  have hE : 2 ^ 2 ≤ 2 ^ F.expWidth := Nat.pow_le_pow_right (by decide) hF.1
  rw [Format.infBits, pow_succ, ← Nat.mul_comm 2, ← Nat.add_mul]; congr 1; omega

/-- The rounded encoding before it is cut at infinity, and its places. -/
theorem Format.round_places (F : Format) {m : Nat} (hm : m ≠ 0) (e : Int) :
    ∃ k N : Nat, F.lastPlace m e = F.minExp + k ∧ roundAt m e (F.lastPlace m e) = N ∧
      F.roundBits m e = min F.infBits (k * 2 ^ F.fracWidth + N) ∧
      F.Places (k * 2 ^ F.fracWidth + N) k N ∧ Nearest N (m * 2 ^ (e - (F.minExp + k))) ∧
      (m : ℚ) * 2 ^ (e - (F.minExp + k)) < 2 ^ (F.fracWidth + 1) ∧
      (k ≠ 0 → (2 : ℚ) ^ F.fracWidth ≤ m * 2 ^ (e - (F.minExp + k))) := by
  obtain ⟨h1, h2, h3⟩ := F.lastPlace_bounds hm e
  have hk : F.lastPlace m e = F.minExp + (F.lastPlace m e - F.minExp).toNat := by omega
  have hnear := roundAt_nearest m e (F.lastPlace m e)
  refine ⟨(F.lastPlace m e - F.minExp).toNat, _, hk, rfl, ?_, ?_, ?_, ?_, ?_⟩
  · simp only [Format.roundBits, if_neg hm]
  · refine ⟨rfl, ?_, ?_⟩
    · have := hnear.le (2 ^ (F.fracWidth + 1) : Nat)
      by_contra hc
      push Not at hc
      have hc' : ((2 ^ (F.fracWidth + 1) : Nat) : ℚ) < roundAt m e (F.lastPlace m e) := by
        exact_mod_cast hc
      push_cast at this hc'
      rw [abs_of_pos (by linarith), abs_of_pos (by linarith)] at this
      linarith
    · by_cases h0 : F.lastPlace m e = F.minExp
      · left; omega
      · right
        have h4 := h2 h0
        have := hnear.le (2 ^ F.fracWidth : Nat)
        by_contra hc
        push Not at hc
        have hc' : (roundAt m e (F.lastPlace m e) : ℚ) < ((2 ^ F.fracWidth : Nat) : ℚ) := by
          exact_mod_cast hc
        push_cast at this hc'
        rw [abs_of_neg (by linarith), abs_of_nonpos (by linarith)] at this
        linarith
  · rw [← hk]; exact hnear
  · rw [← hk]; exact h1
  · rw [← hk]; intro h; exact h2 (by omega)

/-- Below infinity nothing is cut: the places of the rounded encoding itself. -/
theorem Format.roundBits_places (F : Format) {m : Nat} (hm : m ≠ 0) (e : Int)
    (hlt : F.roundBits m e < F.infBits) :
    ∃ k N : Nat, F.lastPlace m e = F.minExp + k ∧ roundAt m e (F.lastPlace m e) = N ∧
      F.Places (F.roundBits m e) k N ∧ Nearest N (m * 2 ^ (e - (F.minExp + k))) ∧
      (k ≠ 0 → (2 : ℚ) ^ F.fracWidth ≤ m * 2 ^ (e - (F.minExp + k))) := by
  obtain ⟨k, N, hk, hN, hR, hpl, hnear, -, hge⟩ := F.round_places hm e
  have hR' : F.roundBits m e = k * 2 ^ F.fracWidth + N := by
    rw [hR] at hlt ⊢
    rcases min_choice F.infBits (k * 2 ^ F.fracWidth + N) with h | h <;> omega
  exact ⟨k, N, hk, hN, hR' ▸ hpl, hnear, hge⟩

/-- Scaling by a power of two and back. -/
theorem mul_two_zpow_cancel (x : ℚ) (e q : Int) : x * 2 ^ (e - q) * 2 ^ q = x * 2 ^ e := by
  rw [mul_assoc, ← zpow_add₀ (by norm_num)]; congr 2; ring

/-- From the overflow bound on the rounded encoding is infinity, below it is not. -/
theorem Format.roundBits_overflow (hF : F.Sound) {m : Nat} (hm : m ≠ 0) (e : Int) :
    (F.overflow ≤ m * 2 ^ e → F.roundBits m e = F.infBits) ∧
      ((m : ℚ) * 2 ^ e < F.overflow → F.roundBits m e < F.infBits) := by
  obtain ⟨k, N, hk, -, hR, ⟨-, hN, hN3⟩, hnear, hlt, hge⟩ := F.round_places hm e
  have hx := mul_two_zpow_cancel m e (F.minExp + k)
  have h2p : 2 ^ (F.fracWidth + 1) = 2 * 2 ^ F.fracWidth := by ring
  have h2q : (2 : ℚ) ^ (F.fracWidth + 1) = 2 * 2 ^ F.fracWidth := by ring
  have hp1 : 2 ^ 1 ≤ 2 ^ F.fracWidth := Nat.pow_le_pow_right (by decide) hF.2
  have hp1q : (2 : ℚ) ≤ 2 ^ F.fracWidth := by exact_mod_cast hp1
  rw [F.overflow_eq hF, hR, F.infBits_eq hF, h2p]
  rw [h2q] at hlt ⊢
  generalize 2 ^ F.expWidth - 3 = K at *
  generalize (m : ℚ) * 2 ^ (e - (F.minExp + k)) = y at *
  rw [← hx]
  have hpos : ∀ i : Nat, (0 : ℚ) < 2 ^ (F.minExp + i) := fun i => by positivity
  have hstep : ∀ i j : Nat, i < j → (2 : ℚ) * 2 ^ (F.minExp + i) ≤ 2 ^ (F.minExp + j) := by
    intro i j h
    rw [mul_comm, ← zpow_add_one₀ (by norm_num)]
    exact zpow_le_zpow_right₀ (by norm_num) (by omega)
  have hmul : ∀ i j : Nat, i < j → (i + 1) * 2 ^ F.fracWidth ≤ j * 2 ^ F.fracWidth :=
    fun i j h => Nat.mul_le_mul_right _ h
  rcases lt_trichotomy k K with h | h | h
  · have h5 := hstep k K h
    have h6 := hmul k K h
    rw [Nat.add_mul] at h6
    have hlow : y * 2 ^ (F.minExp + k) < (2 * 2 ^ F.fracWidth - 1 / 2) * 2 ^ (F.minExp + K) := by
      have := hpos k
      have := hpos K
      nlinarith
    refine ⟨fun h7 => absurd h7 (not_le.2 hlow), fun _ => ?_⟩
    exact lt_of_le_of_lt (min_le_right _ _) (by omega)
  · subst h
    have hk0 := hpos k
    constructor
    · intro h7
      have h8 : 2 * 2 ^ F.fracWidth - 1 / 2 ≤ y := le_of_mul_le_mul_right h7 hk0
      suffices N = 2 * 2 ^ F.fracWidth by omega
      by_contra hc
      have h9 : N ≤ 2 * 2 ^ F.fracWidth - 1 := by omega
      have h10 : (N : ℚ) ≤ 2 * 2 ^ F.fracWidth - 1 := by
        have : N + 1 ≤ 2 * 2 ^ F.fracWidth := by omega
        have : (N : ℚ) + 1 ≤ 2 * 2 ^ F.fracWidth := by exact_mod_cast this
        linarith
      have h11 := hnear.1
      rw [abs_of_neg (by linarith)] at h11
      have h12 : (N : ℚ) = 2 * 2 ^ F.fracWidth - 1 := by linarith
      have h13 := hnear.2 (by rw [abs_of_neg (by linarith)]; linarith)
      have h14 : N + 1 = 2 * 2 ^ F.fracWidth := by
        have : (N : ℚ) + 1 = 2 * 2 ^ F.fracWidth := by linarith
        exact_mod_cast this
      omega
    · intro h7
      have h8 : y < 2 * 2 ^ F.fracWidth - 1 / 2 := lt_of_mul_lt_mul_right h7 hk0.le
      suffices N < 2 * 2 ^ F.fracWidth by omega
      by_contra hc
      have h9 : N = 2 * 2 ^ F.fracWidth := by omega
      have h11 := hnear.1
      have h10 : (N : ℚ) = 2 * 2 ^ F.fracWidth := by exact_mod_cast h9
      rw [abs_of_pos (by linarith)] at h11
      linarith
  · have h5 := hstep K k h
    have h6 := hmul K k h
    rw [Nat.add_mul] at h6
    have h7 := hge (by omega)
    have hhi : (2 * 2 ^ F.fracWidth - 1 / 2) * 2 ^ (F.minExp + K) ≤ y * 2 ^ (F.minExp + k) := by
      have := hpos k
      have := hpos K
      nlinarith
    refine ⟨fun _ => ?_, fun h8 => absurd h8 (not_lt.2 hhi)⟩
    exact min_eq_left (by omega)

/-- Different finite encodings have different magnitudes. -/
theorem Format.magnitude_injective (hF : F.Sound) {b c : Nat} (hb : b < F.infBits)
    (hc : c < F.infBits)     (h : F.magnitude b = F.magnitude c) : b = c := by
  obtain ⟨k, n, hp, hn⟩ := F.places_of b
  obtain ⟨j, l, hq, hl⟩ := F.places_of c
  rw [F.magnitude_of_places hF hb hp, F.magnitude_of_places hF hc hq] at h
  have key : ∀ {k n j l : Nat}, n < 2 ^ (F.fracWidth + 1) → l < 2 ^ (F.fracWidth + 1) →
      (j = 0 ∨ 2 ^ F.fracWidth ≤ l) →
      (n : ℚ) * 2 ^ (F.minExp + k) = l * 2 ^ (F.minExp + j) → j ≤ k := by
    intro k n j l hn hl h3 h
    by_contra hc
    push Not at hc
    have h2q : (2 : ℚ) ^ (F.fracWidth + 1) = 2 * 2 ^ F.fracWidth := by ring
    have hstep : (2 : ℚ) * 2 ^ (F.minExp + k) ≤ 2 ^ (F.minExp + j) := by
      rw [mul_comm, ← zpow_add_one₀ (by norm_num)]
      exact zpow_le_zpow_right₀ (by norm_num) (by omega)
    have hnq : (n : ℚ) < 2 * 2 ^ F.fracWidth := by
      rw [← h2q]; exact_mod_cast hn
    have hlq : (2 : ℚ) ^ F.fracWidth ≤ l := by
      have := h3.resolve_left (by omega); exact_mod_cast this
    have hposj : (0 : ℚ) < 2 ^ (F.minExp + k) := by positivity
    have : (0:ℚ) < 2 ^ F.fracWidth := by positivity
    nlinarith
  have h1 := key hn hl hq.2.2 h
  have h2 := key hl hn hp.2.2 h.symm
  have : k = j := by omega
  subst this
  have : (n : ℚ) = l := mul_right_cancel₀ (by positivity) h
  have : n = l := by exact_mod_cast this
  rw [hp.1, hq.1, this]

/-- Every finite magnitude is nearest at the rounded encoding, and even where it ties. -/
theorem Format.roundBits_nearest (hF : F.Sound) {m : Nat} (hm : m ≠ 0) (e : Int)
    (hlt : F.roundBits m e < F.infBits) {c : Nat} (hc : c < F.infBits) :
    |F.magnitude (F.roundBits m e) - m * 2 ^ e| ≤ |F.magnitude c - m * 2 ^ e| ∧
      (|F.magnitude (F.roundBits m e) - m * 2 ^ e| = |F.magnitude c - m * 2 ^ e| →
        c ≠ F.roundBits m e → F.roundBits m e % 2 = 0) := by
  obtain ⟨k, N, hk, -, hpl, hnear, hge⟩ := F.roundBits_places hm e hlt
  have hx := mul_two_zpow_cancel m e (F.minExp + k)
  have hR' := hpl.1
  have hRm := F.magnitude_of_places hF hlt hpl
  obtain ⟨j, n, hcp, hn⟩ := F.places_of c
  have hcm := F.magnitude_of_places hF hc hcp
  have hpos : (0 : ℚ) < 2 ^ (F.minExp + k) := by positivity
  have hp1 : 2 ^ 1 ≤ 2 ^ F.fracWidth := Nat.pow_le_pow_right (by decide) hF.2
  generalize hy : (m : ℚ) * 2 ^ (e - (F.minExp + k)) = y at *
  have heven : N % 2 = 0 → F.roundBits m e % 2 = 0 := by
    intro h
    obtain ⟨p', hp'⟩ := Nat.exists_eq_add_of_le' hF.2
    rw [hR', hp', pow_succ, ← mul_assoc]; omega
  have hRd : |F.magnitude (F.roundBits m e) - m * 2 ^ e| = |N - y| * 2 ^ (F.minExp + k) := by
    rw [hRm, ← hx, ← sub_mul, abs_mul, abs_of_pos hpos]
  by_cases hjk : k ≤ j
  · -- a multiple of the last place
    have hmul : F.magnitude c = ((n * 2 ^ (j - k) : Nat) : ℚ) * 2 ^ (F.minExp + k) := by
      rw [hcm]; push_cast
      rw [mul_assoc, ← zpow_natCast, ← zpow_add₀ (by norm_num)]; congr 2; omega
    have hcd : |F.magnitude c - m * 2 ^ e| =
        |(((n * 2 ^ (j - k) : Nat) : ℤ) : ℚ) - y| * 2 ^ (F.minExp + k) := by
      rw [hmul, ← hx, ← sub_mul, abs_mul, abs_of_pos hpos]; norm_cast
    rw [hRd, hcd]
    refine ⟨mul_le_mul_of_nonneg_right (hnear.le _) hpos.le, ?_⟩
    intro heq hne
    apply heven
    refine hnear.even ?_ (mul_right_cancel₀ hpos.ne' heq)
    intro hnn
    apply hne
    have hnn : n * 2 ^ (j - k) = N := by exact_mod_cast hnn
    exact F.magnitude_injective hF hc hlt (by rw [hmul, hRm, hnn])
  · push Not at hjk
    have hk0 : k ≠ 0 := by omega
    have h1 := hge hk0
    have h2q : (2 : ℚ) ^ (F.fracWidth + 1) = 2 * 2 ^ F.fracWidth := by ring
    have hstep : (2 : ℚ) * 2 ^ (F.minExp + j) ≤ 2 ^ (F.minExp + k) := by
      rw [mul_comm, ← zpow_add_one₀ (by norm_num)]
      exact zpow_le_zpow_right₀ (by norm_num) (by omega)
    have hnq : (n : ℚ) < 2 * 2 ^ F.fracWidth := by
      rw [← h2q]; exact_mod_cast hn
    have hposj : (0 : ℚ) < 2 ^ (F.minExp + j) := by positivity
    have hsmall : F.magnitude c < 2 ^ F.fracWidth * 2 ^ (F.minExp + k) := by
      rw [hcm]
      have : (0:ℚ) < 2 ^ F.fracWidth := by positivity
      nlinarith
    have h3 := hnear.le (2 ^ F.fracWidth : Nat)
    push_cast at h3
    rw [abs_of_nonpos (by linarith : (2 : ℚ) ^ F.fracWidth - y ≤ 0)] at h3
    have hlt2 : |F.magnitude (F.roundBits m e) - m * 2 ^ e| < |F.magnitude c - m * 2 ^ e| := by
      rw [hRd, ← hx, abs_of_neg (by nlinarith : F.magnitude c - y * 2 ^ (F.minExp + k) < 0)]
      nlinarith
    exact ⟨hlt2.le, fun h => absurd h hlt2.ne⟩


/-- A datum with its sign replaced. -/
def Datum.withSign (neg : Bool) : Datum → Datum
  | .nan => .nan
  | .inf _ => .inf neg
  | .fin _ m e => .fin neg m e

/-- The sign bits as a number. -/
theorem Format.signBits_eq (F : Format) (neg : Bool) :
    F.signBits neg = neg.toNat * 2 ^ (F.expWidth + F.fracWidth) := by
  cases neg <;> simp [Format.signBits]

/-- The sign bit only sets the sign. -/
theorem Format.datum_signBits (F : Format) (neg : Bool) {b : Nat}
    (hb : b < 2 ^ (F.expWidth + F.fracWidth)) :
    F.datum (F.signBits neg + b) = (F.datum b).withSign neg := by
  have hp : 0 < 2 ^ F.fracWidth := by positivity
  have hP : 0 < 2 ^ (F.expWidth + F.fracWidth) := by positivity
  have h1 : (F.signBits neg + b) / 2 ^ (F.expWidth + F.fracWidth) = neg.toNat := by
    rw [F.signBits_eq, Nat.add_comm, Nat.add_mul_div_right _ _ hP, Nat.div_eq_of_lt hb]; omega
  have h2 : (F.signBits neg + b) / 2 ^ F.fracWidth % 2 ^ F.expWidth =
      b / 2 ^ F.fracWidth % 2 ^ F.expWidth := by
    rw [F.signBits_eq, pow_add, ← mul_assoc, Nat.add_comm, Nat.add_mul_div_right _ _ hp,
      Nat.add_mul_mod_self_right]
  have h3 : (F.signBits neg + b) % 2 ^ F.fracWidth = b % 2 ^ F.fracWidth := by
    rw [F.signBits_eq, pow_add, ← mul_assoc, Nat.add_comm, Nat.add_mul_mod_self_right]
  have h4 : (neg.toNat % 2 == 1) = neg := by cases neg <;> rfl
  simp only [Format.datum, h1, h2, h3, h4]
  split
  · rfl
  · split
    · split <;> rfl
    · rfl

/-- Infinity is encoded below the sign bit. -/
theorem Format.infBits_lt (hF : F.Sound) : F.infBits < 2 ^ (F.expWidth + F.fracWidth) := by
  have hE : 2 ^ 2 ≤ 2 ^ F.expWidth := Nat.pow_le_pow_right (by decide) hF.1
  rw [Format.infBits, pow_add]
  exact Nat.mul_lt_mul_of_pos_right (by omega) (by positivity)

/-- A finite encoding denotes a number without a sign. -/
theorem Format.datum_finite {b : Nat} (hF : F.Sound) (hb : b < F.infBits) :
    ∃ m e, F.datum b = .fin false m e := by
  have hp : 0 < 2 ^ F.fracWidth := by positivity
  have hE : 2 ^ 2 ≤ 2 ^ F.expWidth := Nat.pow_le_pow_right (by decide) hF.1
  have hdiv : b / 2 ^ F.fracWidth < 2 ^ F.expWidth - 1 := by
    rw [Nat.div_lt_iff_lt_mul hp]; exact hb
  have hneg : b / 2 ^ (F.expWidth + F.fracWidth) = 0 :=
    Nat.div_eq_of_lt (hb.trans (F.infBits_lt hF))
  simp only [Format.datum, hneg]
  rw [Nat.mod_eq_of_lt (a := b / _) (by omega),
    if_neg (by omega : ¬ b / 2 ^ F.fracWidth = 2 ^ F.expWidth - 1)]
  split <;> exact ⟨_, _, rfl⟩

/-- The encoding of infinity denotes infinity. -/
theorem Format.datum_infBits (hF : F.Sound) : F.datum F.infBits = .inf false := by
  have hp : 0 < 2 ^ F.fracWidth := by positivity
  have hE : 2 ^ 2 ≤ 2 ^ F.expWidth := Nat.pow_le_pow_right (by decide) hF.1
  have hneg : F.infBits / 2 ^ (F.expWidth + F.fracWidth) = 0 :=
    Nat.div_eq_of_lt (F.infBits_lt hF)
  have hd : F.infBits / 2 ^ F.fracWidth = 2 ^ F.expWidth - 1 := Nat.mul_div_cancel _ hp
  have hm : F.infBits % 2 ^ F.fracWidth = 0 := Nat.mul_mod_left _ _
  simp only [Format.datum, hneg, hd, hm]
  rw [Nat.mod_eq_of_lt (by omega), if_neg (by omega)]
  simp

/-- Rounding never goes beyond infinity. -/
theorem Format.roundBits_le (F : Format) (m : Nat) (e : Int) : F.roundBits m e ≤ F.infBits := by
  unfold Format.roundBits; split
  · exact Nat.zero_le _
  · exact min_le_left _ _

theorem Format.infBits_pos (hF : F.Sound) : 0 < F.infBits := by
  have hE : 2 ^ 2 ≤ 2 ^ F.expWidth := Nat.pow_le_pow_right (by decide) hF.1
  exact Nat.mul_pos (by omega) (by positivity)

theorem Format.overflow_pos (hF : F.Sound) : 0 < F.overflow := by
  rw [F.overflow_eq hF]
  have : (1:ℚ) ≤ 2 ^ (F.fracWidth + 1) := one_le_pow₀ (by norm_num)
  apply mul_pos (by linarith) (by positivity)

theorem Format.magnitude_zero (hF : F.Sound) : F.magnitude 0 = 0 := by
  rw [F.magnitude_of_places hF (F.infBits_pos hF) (k := 0) (n := 0) ⟨by simp, by simp, .inl rfl⟩]
  simp

theorem Format.magnitude_nonneg (hF : F.Sound) {b : Nat} (hb : b < F.infBits) :
    0 ≤ F.magnitude b := by
  obtain ⟨k, n, hp, _⟩ := F.places_of b
  rw [F.magnitude_of_places hF hb hp]; positivity

/-- Rounding is finite exactly below the overflow bound. -/
theorem Format.roundBits_lt_iff (hF : F.Sound) (m : Nat) (e : Int) :
    F.roundBits m e < F.infBits ↔ (m : ℚ) * 2 ^ e < F.overflow := by
  by_cases hm : m = 0
  · subst hm; simpa [Format.roundBits, F.infBits_pos hF] using F.overflow_pos hF
  · obtain ⟨h1, h2⟩ := F.roundBits_overflow hF hm e
    refine ⟨fun h => ?_, h2⟩
    by_contra hc
    rw [h1 (not_lt.1 hc)] at h
    exact lt_irrefl _ h

/-- Rounding is infinite exactly from the overflow bound on. -/
theorem Format.roundBits_eq_iff (hF : F.Sound) (m : Nat) (e : Int) :
    F.roundBits m e = F.infBits ↔ F.overflow ≤ (m : ℚ) * 2 ^ e := by
  have := F.roundBits_lt_iff hF m e
  have := F.roundBits_le m e
  rw [← not_lt, ← F.roundBits_lt_iff hF]; omega

/-- What rounding gives: a number of the given sign, or the infinity of that sign. -/
theorem Format.round_finite (hF : F.Sound) {m : Nat} {e : Int} (neg : Bool)
    (h : (m : ℚ) * 2 ^ e < F.overflow) : ∃ n k, F.round neg m e = .fin neg n k ∧
      (n : ℚ) * 2 ^ k = F.magnitude (F.roundBits m e) := by
  have hlt := (F.roundBits_lt_iff hF m e).2 h
  obtain ⟨n, k, hd⟩ := F.datum_finite hF hlt
  refine ⟨n, k, ?_, ?_⟩
  · rw [Format.round, F.datum_signBits neg (hlt.trans (F.infBits_lt hF)), hd]; rfl
  · simp [Format.magnitude, hd, Datum.value]

theorem Format.round_infinite (hF : F.Sound) {m : Nat} {e : Int} (neg : Bool)
    (h : F.overflow ≤ (m : ℚ) * 2 ^ e) : F.round neg m e = .inf neg := by
  rw [Format.round, (F.roundBits_eq_iff hF m e).2 h, F.datum_signBits neg (F.infBits_lt hF),
    F.datum_infBits hF]; rfl

theorem Format.round_isFinite (hF : F.Sound) (neg : Bool) (m : Nat) (e : Int) :
    (F.round neg m e).isFinite = true ↔ (m : ℚ) * 2 ^ e < F.overflow := by
  by_cases h : (m : ℚ) * 2 ^ e < F.overflow
  · obtain ⟨n, k, hd, -⟩ := F.round_finite hF neg h
    simp [hd, h, Datum.isFinite]
  · rw [F.round_infinite hF neg (not_lt.1 h)]; simp [h, Datum.isFinite]

theorem Format.round_negative (hF : F.Sound) (neg : Bool) (m : Nat) (e : Int) :
    (F.round neg m e).negative = neg := by
  by_cases h : (m : ℚ) * 2 ^ e < F.overflow
  · obtain ⟨n, k, hd, -⟩ := F.round_finite hF neg h; rw [hd]; rfl
  · rw [F.round_infinite hF neg (not_lt.1 h)]; rfl

theorem Format.round_ne_nan (hF : F.Sound) (neg : Bool) (m : Nat) (e : Int) :
    F.round neg m e ≠ .nan := by
  by_cases h : (m : ℚ) * 2 ^ e < F.overflow
  · obtain ⟨n, k, hd, -⟩ := F.round_finite hF neg h; rw [hd]; simp
  · rw [F.round_infinite hF neg (not_lt.1 h)]; simp

/-- Rounding is correct rounding. -/
theorem Format.round_roundsTo (hF : F.Sound) (neg : Bool) (m : Nat) (e : Int) :
    F.RoundsTo neg (m * 2 ^ e) (F.round neg m e) := by
  refine ⟨F.roundBits m e, rfl, fun h => (F.roundBits_eq_iff hF m e).2 h, fun h => ?_⟩
  have hlt := (F.roundBits_lt_iff hF m e).2 h
  refine ⟨hlt, fun c hc => ?_⟩
  by_cases hm : m = 0
  · subst hm
    have : F.roundBits 0 e = 0 := rfl
    rw [this, F.magnitude_zero hF]
    simp
  · exact F.roundBits_nearest hF hm e hlt hc

/-- A magnitude of the format is rounded to itself. -/
theorem Format.roundBits_exact (hF : F.Sound) {m : Nat} {e : Int} {b : Nat} (hb : b < F.infBits)
    (h : F.magnitude b = m * 2 ^ e) : F.roundBits m e = b := by
  by_cases hm : m = 0
  · subst hm
    apply F.magnitude_injective hF (F.infBits_pos hF) hb
    rw [h, F.magnitude_zero hF]; simp
  have hov : (m : ℚ) * 2 ^ e < F.overflow := by
    rw [← h, F.overflow_eq hF]
    obtain ⟨k, n, hp, hn⟩ := F.places_of b
    rw [F.magnitude_of_places hF hb hp]
    have hinf := F.infBits_eq hF
    have hn' : (n : ℚ) ≤ 2 ^ (F.fracWidth + 1) - 1 := by
      have : n + 1 ≤ 2 ^ (F.fracWidth + 1) := hn
      have : (n : ℚ) + 1 ≤ 2 ^ (F.fracWidth + 1) := by exact_mod_cast this
      linarith
    have hk : k ≤ 2 ^ F.expWidth - 3 := by
      by_contra hc
      have h1 : (2 ^ F.expWidth - 3 + 1) * 2 ^ F.fracWidth ≤ k * 2 ^ F.fracWidth :=
        Nat.mul_le_mul_right _ (by omega)
      rw [Nat.add_mul] at h1
      have h2 := hp.1
      have h3 := hp.2.2.resolve_left (by omega)
      have h2p : 2 ^ (F.fracWidth + 1) = 2 * 2 ^ F.fracWidth := by ring
      omega
    have h1 : (2:ℚ) ^ (F.minExp + k) ≤ 2 ^ (F.minExp + (2 ^ F.expWidth - 3 : Nat)) :=
      zpow_le_zpow_right₀ (by norm_num) (by omega)
    have h2 : (0:ℚ) < 2 ^ (F.minExp + k) := by positivity
    have h3 : (1:ℚ) ≤ 2 ^ (F.fracWidth + 1) := one_le_pow₀ (by norm_num)
    nlinarith
  have hlt := (F.roundBits_lt_iff hF m e).2 hov
  have := (F.roundBits_nearest hF hm e hlt hb).1
  rw [h, sub_self, abs_zero] at this
  refine F.magnitude_injective hF hlt hb ?_
  rw [h]
  exact sub_eq_zero.1 (abs_eq_zero.1 (le_antisymm this (abs_nonneg _)))

/-- Every `n` with `n < 2^(fracWidth+1)` at a place the format has is a magnitude of the format. -/
theorem Format.exists_magnitude (hF : F.Sound) {n : Nat} {e : Int} (hn : n < 2 ^ (F.fracWidth + 1))
    (he : F.minExp ≤ e) (hlt : (n : ℚ) * 2 ^ e < F.overflow) :
    ∃ b, b < F.infBits ∧ F.magnitude b = n * 2 ^ e := by
  by_cases hm : n = 0
  · exact ⟨0, F.infBits_pos hF, by rw [hm, F.magnitude_zero hF]; simp⟩
  have hb := (F.roundBits_lt_iff hF n e).2 hlt
  refine ⟨_, hb, ?_⟩
  obtain ⟨k, N, hk, hN, hpl, -⟩ := F.roundBits_places hm e hb
  rw [F.magnitude_of_places hF hb hpl]
  have hle : F.lastPlace n e ≤ e := by
    unfold Format.lastPlace
    have : Nat.log2 n < F.fracWidth + 1 := (Nat.log2_lt hm).2 hn
    apply max_le he; omega
  rw [← hN, roundAt, if_pos hle, hk]
  push_cast
  rw [← zpow_natCast, Int.toNat_of_nonneg (by omega), mul_assoc, ← zpow_add₀ (by norm_num)]
  congr 2; ring

/-- Rounding a value the format holds gives that value. -/
theorem Format.round_exact (hF : F.Sound) {n : Nat} {e : Int} (neg : Bool)
    (hn : n < 2 ^ (F.fracWidth + 1)) (he : F.minExp ≤ e) (hlt : (n : ℚ) * 2 ^ e < F.overflow)
    {m : Nat} {e' : Int} (hx : (m : ℚ) * 2 ^ e' = n * 2 ^ e) :
    (F.round neg m e').value = (if neg then -1 else 1) * (n * 2 ^ e) := by
  obtain ⟨b, hb, hbm⟩ := F.exists_magnitude hF hn he hlt
  have hr := F.roundBits_exact hF hb (hbm.trans hx.symm)
  obtain ⟨k, l, h1, h2⟩ := F.round_finite hF neg (m := m) (e := e') (by rw [hx]; exact hlt)
  rw [h1, Datum.value, mul_assoc, h2, hr, hbm]
end Sys2Proof.Machine
end

