-- ==== Sys2Proof/Laws/Operands.lean ====
section
/-! SUPPORT. The operand forms in numbers and in words: what assembling bytes gives, what each reorder
mux delivers, and how the two integer readings are read. -/

namespace Sys2Proof.Machine

/-- Concatenation, as a number. -/
theorem append_toNat {n m : Nat} (a : BitVec n) (b : BitVec m) :
    (a ++ b).toNat = a.toNat * 2 ^ m + b.toNat := by
  rw [BitVec.toNat_append, ← Nat.shiftLeft_add_eq_or_of_lt b.isLt, Nat.shiftLeft_eq]

@[simp] theorem hi8_toNat (w : Word) : (hi8 w).toNat = w.toNat / 256 := by
  have := w.isLt
  simp only [hi8, BitVec.extractLsb'_toNat, Nat.shiftRight_eq_div_pow]
  omega

@[simp] theorem lo8_toNat (w : Word) : (lo8 w).toNat = w.toNat % 256 := by
  simp only [lo8, BitVec.extractLsb'_toNat, Nat.shiftRight_zero]

@[simp] theorem swap16_toNat (w : Word) :
    (swap16 w).toNat = w.toNat % 256 * 256 + w.toNat / 256 := by
  rw [swap16, append_toNat, lo8_toNat, hi8_toNat]; rfl

/-- The bytes of a swapped word are the word's, exchanged. -/
@[simp] theorem hi8_swap16 (w : Word) : hi8 (swap16 w) = lo8 w := by
  have := w.isLt
  apply BitVec.eq_of_toNat_eq
  rw [hi8_toNat, swap16_toNat, lo8_toNat]
  have : w.toNat / 256 < 256 := by omega
  omega

@[simp] theorem lo8_swap16 (w : Word) : lo8 (swap16 w) = hi8 w := by
  have := w.isLt
  apply BitVec.eq_of_toNat_eq
  rw [lo8_toNat, swap16_toNat, hi8_toNat]
  omega

/-- A word is its two bytes. -/
theorem hi8_append_lo8 (w : Word) : hi8 w ++ lo8 w = w := by
  apply BitVec.eq_of_toNat_eq
  rw [append_toNat, hi8_toNat, lo8_toNat]
  omega

/-- Two words as a number. -/
theorem words2_toNat (a b : Word) : (a ++ b : BitVec 32).toNat = a.toNat * 65536 + b.toNat :=
  append_toNat a b

/-- Four words as a number. -/
theorem words4_toNat (a b c d : Word) : (a ++ b ++ c ++ d : BitVec 64).toNat =
    ((a.toNat * 65536 + b.toNat) * 65536 + c.toNat) * 65536 + d.toNat :=
  (append_toNat (a ++ b ++ c) d).trans
    (by rw [append_toNat (a ++ b) c, append_toNat a b]; rfl)

/-- One more byte moves the assembled value up by a byte and takes its place. -/
theorem shift_or_toNat {n : Nat} (acc : BitVec n) (b : Byte) (h : acc.toNat * 256 + 256 ≤ 2 ^ n) :
    ((acc <<< 8) ||| b.setWidth n).toNat = acc.toNat * 256 + b.toNat := by
  have hb := b.isLt
  rw [BitVec.toNat_or, BitVec.toNat_shiftLeft, BitVec.toNat_setWidth,
    Nat.mod_eq_of_lt (a := b.toNat) (by omega), Nat.shiftLeft_eq,
    Nat.mod_eq_of_lt (by omega), ← Nat.shiftLeft_eq, ← Nat.shiftLeft_add_eq_or_of_lt hb,
    Nat.shiftLeft_eq]

/-- Assembling from an accumulator that leaves room for the bytes. -/
theorem foldl_assemble_toNat {n : Nat} (bytes : List Byte) (acc : BitVec n)
    (h : (acc.toNat + 1) * 256 ^ bytes.length ≤ 2 ^ n) :
    (bytes.foldl (fun (acc : BitVec n) b => (acc <<< 8) ||| b.setWidth n) acc).toNat =
      bytes.foldl (fun v b => v * 256 + b.toNat) acc.toNat := by
  induction bytes generalizing acc with
  | nil => rfl
  | cons b bs ih =>
    have hb := b.isLt
    have hp : 1 ≤ 256 ^ bs.length := Nat.one_le_pow _ _ (by omega)
    rw [List.length_cons, pow_succ] at h
    have h256 : (acc.toNat + 1) * 256 ≤ 2 ^ n := by nlinarith
    have hs := shift_or_toNat acc b (by omega)
    rw [List.foldl_cons, ih _ (by rw [hs]; nlinarith), hs]; rfl

/-- Assembled bytes as a number, most significant first (20_memory.md R35). -/
theorem assemble_toNat {n : Nat} (bytes : List Byte) (h : 256 ^ bytes.length ≤ 2 ^ n) :
    (assemble n bytes).toNat = bytes.foldl (fun v b => v * 256 + b.toNat) 0 := by
  rw [assemble, foldl_assemble_toNat] <;> simp [h]

/-- What the 16-bit mux delivers, as a number (41_bool_int8_int16.md R83). -/
theorem ord16_toNat (p : Pat16) (w : Word) : (ord16 p w).toNat =
    match p with
    | .ab => w.toNat
    | .ba => w.toNat % 256 * 256 + w.toNat / 256 := by
  have := w.isLt
  rw [ord16, assemble_toNat _ (by cases p <;> simp [selectBytes, perm16])]
  cases p <;> simp [perm16, bytesOf, selectBytes]
  omega

/-- What the 32-bit mux delivers, in words (42_int32.md R90). -/
theorem reorder32_words (p : Pat32) (x0 x1 : Word) : reorder32 p x0 x1 =
    match p with
    | .abcd => x0 ++ x1
    | .dcba => swap16 x1 ++ swap16 x0
    | .badc => swap16 x0 ++ swap16 x1
    | .cdab => x1 ++ x0 := by
  have := x0.isLt
  have := x1.isLt
  apply BitVec.eq_of_toNat_eq
  rw [reorder32, assemble_toNat _ (by cases p <;> simp [selectBytes, perm32])]
  cases p <;> simp only [words2_toNat] <;> simp [perm32, bytesOf, selectBytes] <;> omega

/-- What the 64-bit mux delivers, in words (43_int64.md R100). -/
theorem reorder64_words (p : Pat64) (x0 x1 x2 x3 : Word) : reorder64 p x0 x1 x2 x3 =
    match p with
    | .abcdefgh => x0 ++ x1 ++ x2 ++ x3
    | .hgfedcba => swap16 x3 ++ swap16 x2 ++ swap16 x1 ++ swap16 x0
    | .badcfehg => swap16 x0 ++ swap16 x1 ++ swap16 x2 ++ swap16 x3
    | .cdabghef => x1 ++ x0 ++ x3 ++ x2
    | .dcbahgfe => swap16 x1 ++ swap16 x0 ++ swap16 x3 ++ swap16 x2
    | .ghefcdab => x3 ++ x2 ++ x1 ++ x0
    | .fehgbadc => swap16 x2 ++ swap16 x3 ++ swap16 x0 ++ swap16 x1
    | .efghabcd => x2 ++ x3 ++ x0 ++ x1 := by
  have := x0.isLt
  have := x1.isLt
  have := x2.isLt
  have := x3.isLt
  apply BitVec.eq_of_toNat_eq
  rw [reorder64, assemble_toNat _ (by cases p <;> simp [selectBytes, perm64])]
  cases p <;> simp only [words4_toNat] <;> simp [perm64, bytesOf, selectBytes] <;> omega

/-- The two's-complement reading is the one of bit vectors (00_scope.md R5). -/
theorem sint_eq_toInt {n : Nat} (v : BitVec n) : sint v = v.toInt := by
  rw [sint, BitVec.toInt_eq_msb_cond]
  norm_cast

end Sys2Proof.Machine
end

