-- ==== Sys2Proof/Laws/Floats.lean ====
section
/-! SUPPORT. The two interchange formats: what an encoding denotes, read back; the product, the
narrowing and the scaled results in terms of rounding. -/

namespace Sys2Proof.Machine

/-- binary64 is a format the rounding laws speak of. -/
theorem sound64 : binary64.Sound := by decide

/-- binary32 is a format the rounding laws speak of. -/
theorem sound32 : binary32.Sound := by decide

/-- An encoding is its sign bit and the bits below it. -/
theorem Format.datum_cases {F : Format} {bits : Nat}
    (h : bits < 2 * 2 ^ (F.expWidth + F.fracWidth)) :
    ∃ neg b, bits = F.signBits neg + b ∧ b < 2 ^ (F.expWidth + F.fracWidth) ∧
      F.datum bits = (F.datum b).withSign neg ∧
      (neg = decide (2 ^ (F.expWidth + F.fracWidth) ≤ bits)) := by
  by_cases hn : 2 ^ (F.expWidth + F.fracWidth) ≤ bits
  · refine ⟨true, bits - 2 ^ (F.expWidth + F.fracWidth), ?_, by omega, ?_, by simp [hn]⟩
    · rw [F.signBits_eq]; simp; omega
    · rw [← F.datum_signBits true (by omega)]; congr 1; rw [F.signBits_eq]; simp; omega
  · refine ⟨false, bits, ?_, by omega, ?_, by simp [hn]⟩
    · rw [F.signBits_eq]; simp
    · rw [← F.datum_signBits false (by omega)]; congr 1; rw [F.signBits_eq]; simp

/-- Above infinity every encoding is a NaN. -/
theorem Format.datum_nan {F : Format} (hF : F.Sound) {b : Nat} (h1 : F.infBits < b)
    (h2 : b < 2 ^ (F.expWidth + F.fracWidth)) : F.datum b = .nan := by
  have hp : 0 < 2 ^ F.fracWidth := by positivity
  have hE : 2 ^ 2 ≤ 2 ^ F.expWidth := Nat.pow_le_pow_right (by decide) hF.1
  have hd : b / 2 ^ F.fracWidth = 2 ^ F.expWidth - 1 := by
    apply le_antisymm
    · have : b / 2 ^ F.fracWidth < 2 ^ F.expWidth := by
        rw [Nat.div_lt_iff_lt_mul hp, ← pow_add]; exact h2
      omega
    · rw [Nat.le_div_iff_mul_le hp]; exact h1.le
  have hm : b % 2 ^ F.fracWidth ≠ 0 := by
    have := Nat.div_add_mod b (2 ^ F.fracWidth)
    rw [hd] at this
    have h3 : F.infBits = 2 ^ F.fracWidth * (2 ^ F.expWidth - 1) := Nat.mul_comm _ _
    omega
  have hneg : b / 2 ^ (F.expWidth + F.fracWidth) = 0 := Nat.div_eq_of_lt h2
  simp only [Format.datum, hd, hneg]
  rw [Nat.mod_eq_of_lt (by omega), if_neg (by omega)]; simp [hm]

/-- An encoding denotes a number, an infinity or a NaN; a number is rounded to its own bits. -/
theorem Format.datum_full {F : Format} (hF : F.Sound) {bits : Nat}
    (h : bits < 2 * 2 ^ (F.expWidth + F.fracWidth)) :
    ∃ neg b, bits = F.signBits neg + b ∧ neg = decide (2 ^ (F.expWidth + F.fracWidth) ≤ bits) ∧
      ((b < F.infBits ∧ ∃ m e, F.datum bits = .fin neg m e ∧
          (m : ℚ) * 2 ^ e = F.magnitude b ∧ F.roundBits m e = b) ∨
        (b = F.infBits ∧ F.datum bits = .inf neg) ∨ (F.infBits < b ∧ F.datum bits = .nan)) := by
  obtain ⟨neg, b, h1, h2, h3, h4⟩ := F.datum_cases h
  refine ⟨neg, b, h1, h4, ?_⟩
  rcases lt_trichotomy b F.infBits with hb | hb | hb
  · obtain ⟨m, e, hd⟩ := F.datum_finite hF hb
    have hm : (m : ℚ) * 2 ^ e = F.magnitude b := by simp [Format.magnitude, hd, Datum.value]
    exact .inl ⟨hb, m, e, by rw [h3, hd]; rfl, hm, F.roundBits_exact hF hb hm.symm⟩
  · exact .inr (.inl ⟨hb, by rw [h3, hb, F.datum_infBits hF]; rfl⟩)
  · exact .inr (.inr ⟨hb, by rw [h3, F.datum_nan hF hb h2]; rfl⟩)

/-- What a binary64 encoding denotes. -/
theorem f64_cases (a : BitVec 64) : ∃ neg b, a.toNat = binary64.signBits neg + b ∧ neg = a.msb ∧
      ((b < binary64.infBits ∧ ∃ m e, f64 a = .fin neg m e ∧
          (m : ℚ) * 2 ^ e = binary64.magnitude b ∧ binary64.roundBits m e = b) ∨
        (b = binary64.infBits ∧ f64 a = .inf neg) ∨ (binary64.infBits < b ∧ f64 a = .nan)) := by
  obtain ⟨neg, b, h1, h2, h3⟩ := Format.datum_full (F := binary64) sound64 (bits := a.toNat) a.isLt
  exact ⟨neg, b, h1, by rw [BitVec.msb_eq_decide]; exact h2, h3⟩

/-- What a binary32 encoding denotes. -/
theorem f32_cases (a : BitVec 32) : ∃ neg b, a.toNat = binary32.signBits neg + b ∧ neg = a.msb ∧
      ((b < binary32.infBits ∧ ∃ m e, f32 a = .fin neg m e ∧
          (m : ℚ) * 2 ^ e = binary32.magnitude b ∧ binary32.roundBits m e = b) ∨
        (b = binary32.infBits ∧ f32 a = .inf neg) ∨ (binary32.infBits < b ∧ f32 a = .nan)) := by
  obtain ⟨neg, b, h1, h2, h3⟩ := Format.datum_full (F := binary32) sound32 (bits := a.toNat) a.isLt
  exact ⟨neg, b, h1, by rw [BitVec.msb_eq_decide]; exact h2, h3⟩

/-- The rational number a finite datum is. -/
theorem Datum.value_fin (neg : Bool) (m : Nat) (e : Int) :
    (Datum.fin neg m e).value = (if neg then -1 else 1) * (m * 2 ^ e) := by
  simp [Datum.value]

/-- A sign has magnitude one. -/
theorem abs_sign (neg : Bool) : |(if neg then -1 else 1 : ℚ)| = 1 := by cases neg <;> simp

/-- The magnitude of a finite datum. -/
theorem Datum.abs_value (neg : Bool) (m : Nat) (e : Int) :
    |(Datum.fin neg m e).value| = m * 2 ^ e := by
  rw [Datum.value_fin, abs_mul, abs_sign, one_mul, abs_of_nonneg (by positivity)]

/-- A finite datum is zero when its significand is. -/
theorem Datum.value_zero (neg : Bool) (m : Nat) (e : Int) :
    (Datum.fin neg m e).value = 0 ↔ m = 0 := by
  rw [← abs_eq_zero, Datum.abs_value]; simp [zpow_ne_zero]

/-- The overflow bound of binary64. -/
theorem overflow64 : binary64.overflow = (2 ^ 54 - 1) * 2 ^ 970 := by
  rw [Format.overflow]
  have h : ((binary64.bias : Nat) : Int) = 1023 := rfl
  have h2 : ((binary64.fracWidth : Nat) : Int) = 52 := rfl
  rw [h, h2, show (1023 : Int) = 53 + 970 by norm_num, zpow_add₀ (by norm_num), ← mul_assoc]
  congr 1; norm_num

/-- A rounded binary64 datum has an encoding. -/
theorem round64_encoded {neg : Bool} {m : Nat} {e : Int} :
    ∃ b : BitVec 64, binary64.round neg m e = f64 b := by
  refine ⟨BitVec.ofNat 64 (binary64.signBits neg + binary64.roundBits m e), ?_⟩
  have h1 := binary64.roundBits_le m e
  have h2 := binary64.infBits_lt sound64
  have h3 : binary64.signBits neg ≤ 2 ^ 63 := by cases neg <;> decide
  rw [f64, BitVec.toNat_ofNat, Nat.mod_eq_of_lt]
  · rfl
  · have : 2 ^ (binary64.expWidth + binary64.fracWidth) = 2 ^ 63 := rfl
    omega

/-- A rounded binary32 datum has an encoding. -/
theorem round32_encoded {neg : Bool} {m : Nat} {e : Int} :
    ∃ b : BitVec 32, binary32.round neg m e = f32 b := by
  refine ⟨BitVec.ofNat 32 (binary32.signBits neg + binary32.roundBits m e), ?_⟩
  have h1 := binary32.roundBits_le m e
  have h2 := binary32.infBits_lt sound32
  have h3 : binary32.signBits neg ≤ 2 ^ 31 := by cases neg <;> decide
  rw [f32, BitVec.toNat_ofNat, Nat.mod_eq_of_lt]
  · rfl
  · have : 2 ^ (binary32.expWidth + binary32.fracWidth) = 2 ^ 31 := rfl
    omega

/-- A number or an infinity is encoded by the bits that denote it. -/
theorem bits64_f64 (b free : BitVec 64) (h : f64 b ≠ .nan) :
    bits64 free (f64 b) = b := by
  obtain ⟨neg, c, h1, -, ⟨hb, m, e, hd, hm, hr⟩ | ⟨hb, hd⟩ | ⟨hb, hd⟩⟩ := f64_cases b
  · rw [bits64, hd, Format.encode, hr, ← h1]; simp
  · rw [bits64, hd, Format.encode, ← hb, ← h1]; simp
  · exact absurd hd h

/-- A number or an infinity is encoded by the bits that denote it. -/
theorem bits32_f32 (b : BitVec 32) (free : BitVec 64) (h : f32 b ≠ .nan) :
    bits32 free (f32 b) = b := by
  obtain ⟨neg, c, h1, -, ⟨hb, m, e, hd, hm, hr⟩ | ⟨hb, hd⟩ | ⟨hb, hd⟩⟩ := f32_cases b
  · rw [bits32, hd, Format.encode, hr, ← h1]; simp
  · rw [bits32, hd, Format.encode, ← hb, ← h1]; simp
  · exact absurd hd h

/-- Any binary64 datum times one is itself. -/
theorem fmul64_one (a : BitVec 64) : fmul64 (f64 a) (f64 0x3FF0000000000000#64) = f64 a := by
  rw [show f64 0x3FF0000000000000#64 = .fin false (2 ^ 52) (-52) by decide +kernel]
  obtain ⟨neg, b, h1, h2, ⟨hb, m, e, hd, hm, hr⟩ | ⟨hb, hd⟩ | ⟨hb, hd⟩⟩ := f64_cases a
  · rw [hd]; simp only [fmul64, Bool.bne_false]
    have hx : ((m * 2 ^ 52 : Nat) : ℚ) * 2 ^ (e + -52) = m * 2 ^ e := by
      push_cast; rw [zpow_add₀ (by norm_num)]; norm_num; ring
    have h3 := binary64.roundBits_exact sound64 hb (hm.symm.trans hx.symm)
    rw [Format.round, h3, ← h1]; exact hd
  · rw [hd]; simp [fmul64]
  · rw [hd]; rfl

/-- The integer narrowing of a product that is a number. -/
theorem scaleInt_number {n : Nat} {v : Int} {scale free : BitVec 64} {neg : Bool} {m : Nat}
    {e : Int} (h : scaledProduct v scale = .fin neg m e) :
    scaleInt n v scale free = wrap n (trunc neg m e) := by
  rw [scaleInt, h]

/-- The integer narrowing of a product that is none. -/
theorem scaleInt_nonfinite {n : Nat} {v : Int} {scale free : BitVec 64}
    (h : (scaledProduct v scale).isFinite = false) : scaleInt n v scale free = free.setWidth n := by
  unfold scaleInt
  cases hp : scaledProduct v scale with
  | nan => rfl
  | inf _ => rfl
  | fin _ _ _ => rw [hp] at h; cases h

end Sys2Proof.Machine
end

