-- ==== Sys2Proof/Laws/PerInstr.lean ====
section
/-! SUPPORT. Facts proved once for each instruction, as syntax. -/

namespace Sys2Proof.Laws

/-- An instruction's own tag finds the row that makes it: looking up `i.tag` and applying the row to
`i`'s fields gives `i` back (30_encoding.md R50, R52). -/
def TagFindsInstr.Statement (i : Instr) : Prop :=
  ∃ r, lookupTag i.tag = some r ∧ r.make i.fields = i

theorem TagFindsInstr.cvtBOOL (f : CmdFields) : TagFindsInstr.Statement (.cvtBOOL f) := ⟨_, rfl, rfl⟩
theorem TagFindsInstr.cvtU8 (f : CmdFields) : TagFindsInstr.Statement (.cvtU8 f) := ⟨_, rfl, rfl⟩
theorem TagFindsInstr.cvtS8 (f : CmdFields) : TagFindsInstr.Statement (.cvtS8 f) := ⟨_, rfl, rfl⟩
theorem TagFindsInstr.cvtU16AB (f : CmdFields) : TagFindsInstr.Statement (.cvtU16AB f) := ⟨_, rfl, rfl⟩
theorem TagFindsInstr.cvtU16BA (f : CmdFields) : TagFindsInstr.Statement (.cvtU16BA f) := ⟨_, rfl, rfl⟩
theorem TagFindsInstr.cvtS16AB (f : CmdFields) : TagFindsInstr.Statement (.cvtS16AB f) := ⟨_, rfl, rfl⟩
theorem TagFindsInstr.cvtS16BA (f : CmdFields) : TagFindsInstr.Statement (.cvtS16BA f) := ⟨_, rfl, rfl⟩
theorem TagFindsInstr.cvtU32ABCD (f : CmdFields) : TagFindsInstr.Statement (.cvtU32ABCD f) := ⟨_, rfl, rfl⟩
theorem TagFindsInstr.cvtU32DCBA (f : CmdFields) : TagFindsInstr.Statement (.cvtU32DCBA f) := ⟨_, rfl, rfl⟩
theorem TagFindsInstr.cvtU32BADC (f : CmdFields) : TagFindsInstr.Statement (.cvtU32BADC f) := ⟨_, rfl, rfl⟩
theorem TagFindsInstr.cvtU32CDAB (f : CmdFields) : TagFindsInstr.Statement (.cvtU32CDAB f) := ⟨_, rfl, rfl⟩
theorem TagFindsInstr.cvtS32ABCD (f : CmdFields) : TagFindsInstr.Statement (.cvtS32ABCD f) := ⟨_, rfl, rfl⟩
theorem TagFindsInstr.cvtS32DCBA (f : CmdFields) : TagFindsInstr.Statement (.cvtS32DCBA f) := ⟨_, rfl, rfl⟩
theorem TagFindsInstr.cvtS32BADC (f : CmdFields) : TagFindsInstr.Statement (.cvtS32BADC f) := ⟨_, rfl, rfl⟩
theorem TagFindsInstr.cvtS32CDAB (f : CmdFields) : TagFindsInstr.Statement (.cvtS32CDAB f) := ⟨_, rfl, rfl⟩
theorem TagFindsInstr.cvtF32ABCD (f : CmdFields) : TagFindsInstr.Statement (.cvtF32ABCD f) := ⟨_, rfl, rfl⟩
theorem TagFindsInstr.cvtF32DCBA (f : CmdFields) : TagFindsInstr.Statement (.cvtF32DCBA f) := ⟨_, rfl, rfl⟩
theorem TagFindsInstr.cvtF32BADC (f : CmdFields) : TagFindsInstr.Statement (.cvtF32BADC f) := ⟨_, rfl, rfl⟩
theorem TagFindsInstr.cvtF32CDAB (f : CmdFields) : TagFindsInstr.Statement (.cvtF32CDAB f) := ⟨_, rfl, rfl⟩
theorem TagFindsInstr.cvtU64ABCDEFGH (f : CmdFields) : TagFindsInstr.Statement (.cvtU64ABCDEFGH f) := ⟨_, rfl, rfl⟩
theorem TagFindsInstr.cvtU64HGFEDCBA (f : CmdFields) : TagFindsInstr.Statement (.cvtU64HGFEDCBA f) := ⟨_, rfl, rfl⟩
theorem TagFindsInstr.cvtU64BADCFEHG (f : CmdFields) : TagFindsInstr.Statement (.cvtU64BADCFEHG f) := ⟨_, rfl, rfl⟩
theorem TagFindsInstr.cvtU64CDABGHEF (f : CmdFields) : TagFindsInstr.Statement (.cvtU64CDABGHEF f) := ⟨_, rfl, rfl⟩
theorem TagFindsInstr.cvtU64DCBAHGFE (f : CmdFields) : TagFindsInstr.Statement (.cvtU64DCBAHGFE f) := ⟨_, rfl, rfl⟩
theorem TagFindsInstr.cvtU64GHEFCDAB (f : CmdFields) : TagFindsInstr.Statement (.cvtU64GHEFCDAB f) := ⟨_, rfl, rfl⟩
theorem TagFindsInstr.cvtU64FEHGBADC (f : CmdFields) : TagFindsInstr.Statement (.cvtU64FEHGBADC f) := ⟨_, rfl, rfl⟩
theorem TagFindsInstr.cvtU64EFGHABCD (f : CmdFields) : TagFindsInstr.Statement (.cvtU64EFGHABCD f) := ⟨_, rfl, rfl⟩
theorem TagFindsInstr.cvtS64ABCDEFGH (f : CmdFields) : TagFindsInstr.Statement (.cvtS64ABCDEFGH f) := ⟨_, rfl, rfl⟩
theorem TagFindsInstr.cvtS64HGFEDCBA (f : CmdFields) : TagFindsInstr.Statement (.cvtS64HGFEDCBA f) := ⟨_, rfl, rfl⟩
theorem TagFindsInstr.cvtS64BADCFEHG (f : CmdFields) : TagFindsInstr.Statement (.cvtS64BADCFEHG f) := ⟨_, rfl, rfl⟩
theorem TagFindsInstr.cvtS64CDABGHEF (f : CmdFields) : TagFindsInstr.Statement (.cvtS64CDABGHEF f) := ⟨_, rfl, rfl⟩
theorem TagFindsInstr.cvtS64DCBAHGFE (f : CmdFields) : TagFindsInstr.Statement (.cvtS64DCBAHGFE f) := ⟨_, rfl, rfl⟩
theorem TagFindsInstr.cvtS64GHEFCDAB (f : CmdFields) : TagFindsInstr.Statement (.cvtS64GHEFCDAB f) := ⟨_, rfl, rfl⟩
theorem TagFindsInstr.cvtS64FEHGBADC (f : CmdFields) : TagFindsInstr.Statement (.cvtS64FEHGBADC f) := ⟨_, rfl, rfl⟩
theorem TagFindsInstr.cvtS64EFGHABCD (f : CmdFields) : TagFindsInstr.Statement (.cvtS64EFGHABCD f) := ⟨_, rfl, rfl⟩
theorem TagFindsInstr.cvtF64ABCDEFGH (f : CmdFields) : TagFindsInstr.Statement (.cvtF64ABCDEFGH f) := ⟨_, rfl, rfl⟩
theorem TagFindsInstr.cvtF64HGFEDCBA (f : CmdFields) : TagFindsInstr.Statement (.cvtF64HGFEDCBA f) := ⟨_, rfl, rfl⟩
theorem TagFindsInstr.cvtF64BADCFEHG (f : CmdFields) : TagFindsInstr.Statement (.cvtF64BADCFEHG f) := ⟨_, rfl, rfl⟩
theorem TagFindsInstr.cvtF64CDABGHEF (f : CmdFields) : TagFindsInstr.Statement (.cvtF64CDABGHEF f) := ⟨_, rfl, rfl⟩
theorem TagFindsInstr.cvtF64DCBAHGFE (f : CmdFields) : TagFindsInstr.Statement (.cvtF64DCBAHGFE f) := ⟨_, rfl, rfl⟩
theorem TagFindsInstr.cvtF64GHEFCDAB (f : CmdFields) : TagFindsInstr.Statement (.cvtF64GHEFCDAB f) := ⟨_, rfl, rfl⟩
theorem TagFindsInstr.cvtF64FEHGBADC (f : CmdFields) : TagFindsInstr.Statement (.cvtF64FEHGBADC f) := ⟨_, rfl, rfl⟩
theorem TagFindsInstr.cvtF64EFGHABCD (f : CmdFields) : TagFindsInstr.Statement (.cvtF64EFGHABCD f) := ⟨_, rfl, rfl⟩

end Sys2Proof.Laws
end

