-- ==== Sys2Proof/Laws/State.lean ====
section
/-! SUPPORT. One lemma per field for each update of the state: what `raise`, `pack`, `regStore`,
`resetRegs` and `State.completed` leave in every field. -/

namespace Sys2Proof.Machine

/-! Error entry writes `STATUS` alone (60_exceptions.md R164). -/

@[simp] theorem raise_x0 (e : ErrorKind) (s : State) : (raise e s).x0 = s.x0 := rfl
@[simp] theorem raise_x1 (e : ErrorKind) (s : State) : (raise e s).x1 = s.x1 := rfl
@[simp] theorem raise_x2 (e : ErrorKind) (s : State) : (raise e s).x2 = s.x2 := rfl
@[simp] theorem raise_x3 (e : ErrorKind) (s : State) : (raise e s).x3 = s.x3 := rfl
@[simp] theorem raise_scale (e : ErrorKind) (s : State) : (raise e s).scale = s.scale := rfl
@[simp] theorem raise_cmd (e : ErrorKind) (s : State) : (raise e s).cmd = s.cmd := rfl
@[simp] theorem raise_status (e : ErrorKind) (s : State) : (raise e s).status = statusWord e := rfl
@[simp] theorem raise_result (e : ErrorKind) (s : State) : (raise e s).result = s.result := rfl
@[simp] theorem raise_pending (e : ErrorKind) (s : State) : (raise e s).pending = s.pending := rfl
@[simp] theorem raise_answers (e : ErrorKind) (s : State) : (raise e s).answers = s.answers := rfl
@[simp] theorem raise_draws (e : ErrorKind) (s : State) : (raise e s).draws = s.draws := rfl
@[simp] theorem raise_f64Excluded (e : ErrorKind) (s : State) :
    (raise e s).f64Excluded = s.f64Excluded := rfl

/-! The packer writes `RESULT` and `STATUS` and moves the draws on (40_dispatch.md R68). -/

section
variable {n : Nat} (m : BitVec n) (s : State)
@[simp] theorem pack_x0 : (pack m s).x0 = s.x0 := rfl
@[simp] theorem pack_x1 : (pack m s).x1 = s.x1 := rfl
@[simp] theorem pack_x2 : (pack m s).x2 = s.x2 := rfl
@[simp] theorem pack_x3 : (pack m s).x3 = s.x3 := rfl
@[simp] theorem pack_scale : (pack m s).scale = s.scale := rfl
@[simp] theorem pack_cmd : (pack m s).cmd = s.cmd := rfl
@[simp] theorem pack_status : (pack m s).status = statusWord .success := rfl
@[simp] theorem pack_result : (pack m s).result = m.setWidth 64 := rfl
@[simp] theorem pack_pending : (pack m s).pending = s.pending := rfl
@[simp] theorem pack_answers : (pack m s).answers = s.answers := rfl
@[simp] theorem pack_draws : (pack m s).draws = s.draws + 1 := rfl
@[simp] theorem pack_f64Excluded : (pack m s).f64Excluded = s.f64Excluded := rfl
end

/-- Packing a member is what the claims call completing with its zero extension. -/
theorem pack_eq_completed {n : Nat} (m : BitVec n) (s : State) :
    pack m s = s.completed (m.setWidth 64) := rfl

/-! A store writes the register it names and nothing else (20_memory.md R33, R34). -/

section
variable (r : RegVal) (s : State)
@[simp] theorem regStore_status : (regStore r s).status = s.status := by cases r <;> rfl
@[simp] theorem regStore_result : (regStore r s).result = s.result := by cases r <;> rfl
@[simp] theorem regStore_pending : (regStore r s).pending = s.pending := by cases r <;> rfl
@[simp] theorem regStore_answers : (regStore r s).answers = s.answers := by cases r <;> rfl
@[simp] theorem regStore_draws : (regStore r s).draws = s.draws := by cases r <;> rfl
@[simp] theorem regStore_f64Excluded : (regStore r s).f64Excluded = s.f64Excluded := by
  cases r <;> rfl
end

@[simp] theorem regStore_x0 (v : Word) (s : State) : regStore (.x0 v) s = { s with x0 := v } := rfl
@[simp] theorem regStore_x1 (v : Word) (s : State) : regStore (.x1 v) s = { s with x1 := v } := rfl
@[simp] theorem regStore_x2 (v : Word) (s : State) : regStore (.x2 v) s = { s with x2 := v } := rfl
@[simp] theorem regStore_x3 (v : Word) (s : State) : regStore (.x3 v) s = { s with x3 := v } := rfl
@[simp] theorem regStore_scale (v : BitVec 64) (s : State) :
    regStore (.scale v) s = { s with scale := v } := rfl
@[simp] theorem regStore_cmd (v : BitVec 32) (s : State) :
    regStore (.cmd v) s = { s with cmd := v } := rfl
@[simp] theorem regStore_ignores_status (v : BitVec 8) (s : State) :
    regStore (.status v) s = s := rfl
@[simp] theorem regStore_ignores_result (v : BitVec 64) (s : State) :
    regStore (.result v) s = s := rfl

/-! Reset sets the eight registers and keeps the model's own fields (70_reset_and_hazards.md R180). -/

section
variable (s : State)
@[simp] theorem resetRegs_x0 : (resetRegs s).x0 = 0#16 := rfl
@[simp] theorem resetRegs_x1 : (resetRegs s).x1 = 0#16 := rfl
@[simp] theorem resetRegs_x2 : (resetRegs s).x2 = 0#16 := rfl
@[simp] theorem resetRegs_x3 : (resetRegs s).x3 = 0#16 := rfl
@[simp] theorem resetRegs_scale : (resetRegs s).scale = 0x3FF0000000000000#64 := rfl
@[simp] theorem resetRegs_cmd : (resetRegs s).cmd = 0#32 := rfl
@[simp] theorem resetRegs_status : (resetRegs s).status = 0#8 := rfl
@[simp] theorem resetRegs_result : (resetRegs s).result = 0#64 := rfl
@[simp] theorem resetRegs_pending : (resetRegs s).pending = s.pending := rfl
@[simp] theorem resetRegs_answers : (resetRegs s).answers = s.answers := rfl
@[simp] theorem resetRegs_draws : (resetRegs s).draws = s.draws := rfl
@[simp] theorem resetRegs_f64Excluded : (resetRegs s).f64Excluded = s.f64Excluded := rfl
end

/-! The status words of the six error kinds (10_state.md R16, 60_exceptions.md R160). -/

@[simp] theorem statusWord_success : statusWord .success = 0x80#8 := rfl
@[simp] theorem statusWord_nullPointer : statusWord .nullPointer = 0x81#8 := rfl
@[simp] theorem statusWord_invalidType : statusWord .invalidType = 0x82#8 := rfl
@[simp] theorem statusWord_invalidBitPosition : statusWord .invalidBitPosition = 0x83#8 := rfl
@[simp] theorem statusWord_insufficientRegisters : statusWord .insufficientRegisters = 0x84#8 := rfl
@[simp] theorem statusWord_unknown : statusWord .unknown = 0x85#8 := rfl

/-- Every status word says DONE, whatever the error kind. -/
theorem doneOf_statusWord (e : ErrorKind) : doneOf (statusWord e) = true := by
  cases e <;> rfl

/-- The code of an error kind is read back from the status word it makes. -/
theorem errOf_statusWord (e : ErrorKind) : errOf (statusWord e) = e.code := by
  cases e <;> rfl

/-- The status word of every error kind a command ends with is one the invariant allows. -/
theorem statusWord_legal {e : ErrorKind} (he : e ≠ .unknown) :
    doneOf (statusWord e) = true ∧ (statusWord e).extractLsb' 3 4 = 0#4 ∧
      (errOf (statusWord e)).toNat ≤ 4 := by
  cases e <;> first | exact absurd rfl he | decide

end Sys2Proof.Machine
end

