-- ==== Sys2Proof/Laws/Ops.lean ====
section
/-! SUPPORT. What the shared operations can do, each said once: the checks, a command, an instruction,
the host's operations, a step. -/

namespace Sys2Proof.Machine

open Host

/-! The dispatcher's checks (40_dispatch.md R60 lines 1 to 4). -/

theorem firstError_absent {need : Nat} {valid : Bool} {f : CmdFields}
    (h : f.rp = false ∨ f.dp = false) : firstError need valid f = some .nullPointer := by
  simp [firstError, h]

theorem firstError_empty {need : Nat} {valid : Bool} {f : CmdFields} (hr : f.rp = true)
    (hd : f.dp = true) (hc : f.count = 0) :
    firstError need valid f = some .insufficientRegisters := by
  simp [firstError, hr, hd, hc]

theorem firstError_invalid {need : Nat} {f : CmdFields} (hr : f.rp = true) (hd : f.dp = true)
    (hc : 1 ≤ f.count) : firstError need false f = some .invalidType := by
  have : f.count ≠ 0 := by omega
  simp [firstError, hr, hd, this]

theorem firstError_short {need : Nat} {f : CmdFields} (hr : f.rp = true) (hd : f.dp = true)
    (hc : 1 ≤ f.count) (hn : f.count < need) :
    firstError need true f = some .insufficientRegisters := by
  have : f.count ≠ 0 := by omega
  simp [firstError, hr, hd, this, hn]

theorem firstError_none {need : Nat} {f : CmdFields} (hr : f.rp = true) (hd : f.dp = true)
    (hc : 1 ≤ f.count) (hn : need ≤ f.count) : firstError need true f = none := by
  have h0 : f.count ≠ 0 := by omega
  have h1 : ¬ f.count < need := by omega
  simp [firstError, hr, hd, h0, h1]

/-- When the checks find no error, the operands are present, enough and of a valid type. -/
theorem of_firstError_none {need : Nat} {valid : Bool} {f : CmdFields}
    (h : firstError need valid f = none) :
    f.rp = true ∧ f.dp = true ∧ 1 ≤ f.count ∧ valid = true ∧ need ≤ f.count := by
  unfold firstError at h
  repeat' split at h
  all_goals try cases h
  rename_i h1 h2 h3 h4
  push Not at h1
  refine ⟨by simpa using h1.1, by simpa using h1.2, by omega, by simpa using h3, by omega⟩

/-- The checks find one of three errors. -/
theorem firstError_cases {need : Nat} {valid : Bool} {f : CmdFields} {e : ErrorKind}
    (h : firstError need valid f = some e) :
    e = .nullPointer ∨ e = .insufficientRegisters ∨ e = .invalidType := by
  unfold firstError at h
  repeat' split at h
  all_goals cases h
  all_goals simp

/-! A command (40_dispatch.md R60). -/

theorem runCommand_error {n need : Nat} {valid : Bool} {f : CmdFields} {e : ErrorKind}
    (m : Except ErrorKind (BitVec n)) (s : State) (h : firstError need valid f = some e) :
    runCommand need valid f m s = .next (raise e s) := by
  simp [runCommand, h]

theorem runCommand_finish {n need : Nat} {valid : Bool} {f : CmdFields}
    (m : Except ErrorKind (BitVec n)) (s : State) (h : firstError need valid f = none) :
    runCommand need valid f m s = .next (finish m s) := by
  simp [runCommand, h]

/-- All a command can do: a check or the decoder raises an error, or the decoder's member is packed
after every check has passed. -/
theorem runCommand_cases {n need : Nat} {valid : Bool} {f : CmdFields}
    {m : Except ErrorKind (BitVec n)} {s t : State} (h : runCommand need valid f m s = .next t) :
    (∃ e, firstError need valid f = some e ∧ t = raise e s) ∨
      (∃ e, firstError need valid f = none ∧ m = .error e ∧ t = raise e s) ∨
      (∃ b, firstError need valid f = none ∧ m = .ok b ∧ t = pack b s) := by
  unfold runCommand at h
  split at h
  · rename_i e he
    cases h
    exact .inl ⟨e, he, rfl⟩
  · rename_i he
    cases m with
    | error e => cases h; exact .inr (.inl ⟨e, he, rfl, rfl⟩)
    | ok b => cases h; exact .inr (.inr ⟨b, he, rfl, rfl⟩)

/-- A command always answers a next state. -/
theorem runCommand_answers {n need : Nat} {valid : Bool} {f : CmdFields}
    (m : Except ErrorKind (BitVec n)) (s : State) : ∃ t, runCommand need valid f m s = .next t := by
  unfold runCommand
  split <;> exact ⟨_, rfl⟩

/-- The boolean decoder raises no error but InvalidBitPosition (41_bool_int8_int16.md R80). -/
theorem boolMember_error {b : Nat} {w : Word} {e : ErrorKind} (h : boolMember b w = .error e) :
    e = .invalidBitPosition := by
  unfold boolMember at h
  split at h <;> cases h
  rfl

/-- Up to 15 the boolean decoder returns the bit (41_bool_int8_int16.md R80). -/
theorem boolMember_ok {b : Nat} {w : Word} (h : b ≤ 15) :
    boolMember b w = .ok (BitVec.ofBool (w.getLsbD b)) := if_neg (by omega)

/-- Above 15 it raises InvalidBitPosition (41_bool_int8_int16.md R80). -/
theorem boolMember_refuses {b : Nat} {w : Word} (h : 15 < b) :
    boolMember b w = .error .invalidBitPosition := if_pos h

/-- A change of the state that a raise and a pack commute with commutes with the command. -/
theorem runCommand_commutes {n need : Nat} {valid : Bool} {f : CmdFields}
    {m : Except ErrorKind (BitVec n)} {s t : State} (g : State → State)
    (h1 : ∀ e s, g (raise e s) = raise e (g s))
    (h2 : ∀ (b : BitVec n) s, g (pack b s) = pack b (g s))
    (h : runCommand need valid f m s = .next t) :
    runCommand need valid f m (g s) = .next (g t) := by
  unfold runCommand at h ⊢
  split at h <;> cases h
  · rw [h1]
  · cases m with
    | error e => simp only [finish, h1]
    | ok b => simp only [finish, h2]

/-! An instruction. -/

/-- Every instruction is one command: some `need`, some validity, some outcome of its decoder. -/
theorem exec_is_runCommand (i : Instr) (s : State) :
    ∃ (n need : Nat) (valid : Bool) (m : Except ErrorKind (BitVec n)),
      exec i s = runCommand need valid i.fields m s := by
  cases i <;> exact ⟨_, _, _, _, rfl⟩

/-- All an instruction can do: raise an error, or pack a member. -/
theorem exec_cases {i : Instr} {s t : State} (h : exec i s = .next t) :
    (∃ e, t = raise e s) ∨ ∃ (n : Nat) (b : BitVec n), t = pack b s := by
  obtain ⟨n, need, valid, m, hm⟩ := exec_is_runCommand i s
  rw [hm] at h
  obtain ⟨e, _, rfl⟩ | ⟨e, _, _, rfl⟩ | ⟨b, _, _, rfl⟩ := runCommand_cases h
  · exact .inl ⟨e, rfl⟩
  · exact .inl ⟨e, rfl⟩
  · exact .inr ⟨n, b, rfl⟩

/-! The decoder's table. -/

/-- A row of the table makes instructions with its own tag and the fields it is given. -/
theorem lookupTag_row {t : BitVec 8} {r : TagRow} (h : lookupTag t = some r) :
    r.dtype = t ∧ ∀ f, (r.make f).tag = r.dtype ∧ (r.make f).fields = f := by
  have hm : r ∈ tagTable := List.mem_of_find?_eq_some h
  have ht : r.dtype = t := by simpa using List.find?_some h
  refine ⟨ht, ?_⟩
  intro f
  simp only [tagTable, tagRowsOneWord, tagRowsTwoWords, tagRowsInt64, tagRowsFloat64,
    List.mem_append, List.mem_cons, List.not_mem_nil, or_false] at hm
  rcases hm with ((hm | hm) | hm) | hm
  all_goals
    (first
      | (rcases hm with rfl | rfl | rfl | rfl | rfl | rfl | rfl <;> exact ⟨rfl, rfl⟩)
      | (rcases hm with rfl | rfl | rfl | rfl | rfl | rfl | rfl | rfl <;> exact ⟨rfl, rfl⟩)
      | (rcases hm with rfl | rfl | rfl | rfl | rfl | rfl | rfl | rfl | rfl | rfl | rfl | rfl <;>
          exact ⟨rfl, rfl⟩)
      | (rcases hm with rfl | rfl | rfl | rfl | rfl | rfl | rfl | rfl | rfl | rfl | rfl | rfl |
          rfl | rfl | rfl | rfl <;> exact ⟨rfl, rfl⟩))

/-- A decoded instruction has the tag and the fields of the word. -/
theorem decode_ok {v : BitVec 32} {i : Instr} (h : decode v = .ok i) :
    i.tag = dtypeOf v ∧ i.fields = fieldsOf v := by
  unfold decode at h
  split at h
  · rename_i r hr
    cases h
    obtain ⟨h1, h2⟩ := lookupTag_row hr
    exact ⟨(h2 _).1.trans h1, (h2 _).2⟩
  · cases h

/-! A command word. -/

theorem command_ok {v : BitVec 32} {i : Instr} (h : decode v = .ok i) (s : State) :
    command v s = exec i s := by
  simp [command, h]

theorem command_error {v : BitVec 32} {e : DecodeError} (h : decode v = .error e) (s : State) :
    command v s = execIllegalTag (fieldsOf v) s := by
  simp [command, h]

/-- All a command word can do: raise an error, or pack a member. -/
theorem command_cases {v : BitVec 32} {s t : State} (h : command v s = .next t) :
    (∃ e, t = raise e s) ∨ ∃ (n : Nat) (b : BitVec n), t = pack b s := by
  cases hd : decode v with
  | ok i => exact exec_cases (command_ok hd s ▸ h)
  | error e =>
    rw [command_error hd] at h
    obtain ⟨e, _, rfl⟩ | ⟨e, _, _, rfl⟩ | ⟨b, _, hm, _⟩ := runCommand_cases h
    · exact .inl ⟨e, rfl⟩
    · exact .inl ⟨e, rfl⟩
    · cases hm

/-- A command word always answers a next state. -/
theorem command_answers (v : BitVec 32) (s : State) : ∃ t, command v s = .next t := by
  cases hd : decode v with
  | ok i =>
    obtain ⟨_, _, _, _, hm⟩ := exec_is_runCommand i s
    rw [command_ok hd, hm]
    exact runCommand_answers _ _
  | error e =>
    rw [command_error hd]
    exact runCommand_answers _ _

/-! The host's operations and a step. -/

@[simp] theorem takeHostOp_none {s : State} (h : s.pending = []) : takeHostOp s = .done s := by
  simp [takeHostOp, h]

theorem takeHostOp_next {s : State} {op : HostOp} {rest : List HostOp}
    (h : s.pending = op :: rest) : takeHostOp s = hostOp op { s with pending := rest } := by
  simp [takeHostOp, h]

theorem hostOp_read (k : Reg) (s : State) :
    hostOp (.read k) s = .done { s with answers := s.answers ++ [regRead k s] } := rfl

theorem hostOp_reset (s : State) : hostOp .reset s = .done (resetRegs s) := rfl

theorem hostOp_write_cmd (v : BitVec 32) (s : State) :
    hostOp (.write (.cmd v)) s = .command v { s with cmd := v } := rfl

theorem hostOp_write {r : RegVal} (h : ∀ v, r ≠ .cmd v) (s : State) :
    hostOp (.write r) s = .done (regStore r s) := by
  cases r <;> first | rfl | exact absurd rfl (h _)

/-- A step that finds a write of `CMD` runs the command of the written word. -/
theorem step_command {s : State} {v : BitVec 32} {rest : List HostOp}
    (h : s.pending = .write (.cmd v) :: rest) :
    step s = command v { s with pending := rest, cmd := v } := by
  simp only [step, takeHostOp_next h, hostOp_write_cmd]

/-- All a step can do: wait, answer a read, store, reset, or run a command that raises an error or
packs a member. -/
theorem step_cases {s t : State} (h : step s = .next t) :
    (s.pending = [] ∧ t = s) ∨
    (∃ k rest, s.pending = .read k :: rest ∧
      t = { s with pending := rest, answers := s.answers ++ [regRead k s] }) ∨
    (∃ r rest, s.pending = .write r :: rest ∧ (∀ v, r ≠ .cmd v) ∧
      t = regStore r { s with pending := rest }) ∨
    (∃ rest, s.pending = .reset :: rest ∧ t = resetRegs { s with pending := rest }) ∨
    (∃ v rest, s.pending = .write (.cmd v) :: rest ∧
      ((∃ e, t = raise e { s with pending := rest, cmd := v }) ∨
        ∃ (n : Nat) (b : BitVec n), t = pack b { s with pending := rest, cmd := v })) := by
  cases hp : s.pending with
  | nil =>
    simp only [step, takeHostOp_none hp] at h
    cases h
    exact .inl ⟨rfl, rfl⟩
  | cons op rest =>
    by_cases hc : ∃ v, op = .write (.cmd v)
    · obtain ⟨v, rfl⟩ := hc
      rw [step_command hp] at h
      exact .inr (.inr (.inr (.inr ⟨v, rest, rfl, command_cases h⟩)))
    · cases op with
      | read k =>
        simp only [step, takeHostOp_next hp, hostOp_read] at h
        cases h
        exact .inr (.inl ⟨k, rest, rfl, rfl⟩)
      | reset =>
        simp only [step, takeHostOp_next hp, hostOp_reset] at h
        cases h
        exact .inr (.inr (.inr (.inl ⟨rest, rfl, rfl⟩)))
      | write r =>
        have hr : ∀ v, r ≠ .cmd v := fun v hv => hc ⟨v, by rw [hv]⟩
        simp only [step, takeHostOp_next hp, hostOp_write hr] at h
        cases h
        exact .inr (.inr (.inl ⟨r, rest, rfl, hr, rfl⟩))

/-- A step takes the oldest pending operation, if there is one, and no other. -/
theorem step_pending {s t : State} (h : step s = .next t) : t.pending = s.pending.tail := by
  rcases step_cases h with ⟨h1, rfl⟩ | ⟨_, _, h1, rfl⟩ | ⟨_, _, h1, _, rfl⟩ | ⟨_, h1, rfl⟩ |
    ⟨_, _, h1, ⟨_, rfl⟩ | ⟨_, _, rfl⟩⟩ <;> simp [h1]

end Sys2Proof.Machine
end

