-- ==== Sys2Proof/Laws/Instr.lean ====
section
/-! SUPPORT. What each of the 43 instructions is as a command: how many words it needs, when its tag is
a valid one, how wide its member is and which error its decoder raises. Every claim about all
instructions can cite this one lemma. -/

namespace Sys2Proof.Machine

open Host

/-- The tag below the float64 tags is excluded by nothing. -/
theorem not_excludedTag (s : State) (t : BitVec 8) (h : t.toNat < 0x90) :
    true = decide (¬ s.ExcludedTag t) := by
  unfold State.ExcludedTag
  cases h : s.f64Excluded with
  | none => simp
  | some q => simp; omega

/-- `excludes` speaks of the tag of the pattern (44_float.md R134). -/
theorem excludes_eq (s : State) (p : Pat64) (t : BitVec 8) (h : t.toNat = 0x90 + pat64Index p) :
    (!s.excludes p) = decide (¬ s.ExcludedTag t) := by
  unfold State.excludes State.ExcludedTag
  rw [h]
  cases h : s.f64Excluded with
  | none => cases p <;> decide
  | some q => cases p <;> cases q <;> decide

/-- What `exec_spec` says of one instruction whose arm is known. -/
theorem exec_spec_of {i : Instr} {s : State} {t : BitVec 8} {need n : Nat} {valid : Bool}
    {m : Except ErrorKind (BitVec n)} (htag : i.tag = t)
    (hexec : exec i s = runCommand need valid i.fields m s) (hneed : needOf t = need)
    (hvalid : valid = decide (¬ s.ExcludedTag t)) (hwidth : n = memberWidth t)
    (herr : ∀ e, m = .error e → t = 0#8 ∧ 15 < i.fields.bitpos ∧ e = .invalidBitPosition)
    (hbool : t = 0#8 → 15 < i.fields.bitpos → m = .error .invalidBitPosition) :
    ∃ (n : Nat) (m : Except ErrorKind (BitVec n)),
      exec i s = runCommand (needOf i.tag) (decide (¬ s.ExcludedTag i.tag)) i.fields m s ∧
      n = memberWidth i.tag ∧
      (∀ e, m = .error e → i.tag = 0#8 ∧ 15 < i.fields.bitpos ∧ e = .invalidBitPosition) ∧
      (i.tag = 0#8 → 15 < i.fields.bitpos → m = .error .invalidBitPosition) := by
  subst htag hneed hwidth
  exact ⟨_, m, by rw [hexec, hvalid], rfl, herr, hbool⟩

/-- Every instruction is one command with the `need` and the validity of its tag; its decoder returns
a member of the tag's width, or, for CVT.BOOL with `BITPOS > 15` alone, InvalidBitPosition
(40_dispatch.md R60, R65). -/
theorem exec_spec (i : Instr) (s : State) :
    ∃ (n : Nat) (m : Except ErrorKind (BitVec n)),
      exec i s = runCommand (needOf i.tag) (decide (¬ s.ExcludedTag i.tag)) i.fields m s ∧
      n = memberWidth i.tag ∧
      (∀ e, m = .error e → i.tag = 0#8 ∧ 15 < i.fields.bitpos ∧ e = .invalidBitPosition) ∧
      (i.tag = 0#8 → 15 < i.fields.bitpos → m = .error .invalidBitPosition) := by
  cases i with
  | cvtBOOL f =>
    refine exec_spec_of rfl rfl
      (by simp only [Instr.tag]; decide)
      (not_excludedTag s _ (by simp only [Instr.tag]; decide)) (by simp only [Instr.tag]; decide)
      ?_ ?_
    · intro e he
      refine ⟨rfl, ?_, boolMember_error he⟩
      unfold boolMember at he; split at he
      · assumption
      · cases he
    · intro _ h; exact if_pos h
  | cvtF64ABCDEFGH f =>
    exact exec_spec_of rfl rfl
      (by simp only [Instr.tag]; decide) (excludes_eq s .abcdefgh _ rfl)
      (by simp only [Instr.tag]; decide) nofun nofun
  | cvtF64HGFEDCBA f =>
    exact exec_spec_of rfl rfl
      (by simp only [Instr.tag]; decide) (excludes_eq s .hgfedcba _ rfl)
      (by simp only [Instr.tag]; decide) nofun nofun
  | cvtF64BADCFEHG f =>
    exact exec_spec_of rfl rfl
      (by simp only [Instr.tag]; decide) (excludes_eq s .badcfehg _ rfl)
      (by simp only [Instr.tag]; decide) nofun nofun
  | cvtF64CDABGHEF f =>
    exact exec_spec_of rfl rfl
      (by simp only [Instr.tag]; decide) (excludes_eq s .cdabghef _ rfl)
      (by simp only [Instr.tag]; decide) nofun nofun
  | cvtF64DCBAHGFE f =>
    exact exec_spec_of rfl rfl
      (by simp only [Instr.tag]; decide) (excludes_eq s .dcbahgfe _ rfl)
      (by simp only [Instr.tag]; decide) nofun nofun
  | cvtF64GHEFCDAB f =>
    exact exec_spec_of rfl rfl
      (by simp only [Instr.tag]; decide) (excludes_eq s .ghefcdab _ rfl)
      (by simp only [Instr.tag]; decide) nofun nofun
  | cvtF64FEHGBADC f =>
    exact exec_spec_of rfl rfl
      (by simp only [Instr.tag]; decide) (excludes_eq s .fehgbadc _ rfl)
      (by simp only [Instr.tag]; decide) nofun nofun
  | cvtF64EFGHABCD f =>
    exact exec_spec_of rfl rfl
      (by simp only [Instr.tag]; decide) (excludes_eq s .efghabcd _ rfl)
      (by simp only [Instr.tag]; decide) nofun nofun
  | _ f =>
    exact exec_spec_of rfl rfl
      (by simp only [Instr.tag]; decide) (not_excludedTag s _ (by simp only [Instr.tag]; decide))
      (by simp only [Instr.tag]; decide) nofun nofun

/-- All a command word can do, with the error kinds that occur: `unknown` is none of them
(60_exceptions.md R161). -/
theorem command_outcomes {v : BitVec 32} {s t : State} (h : command v s = .next t) :
    (∃ e, e ≠ .unknown ∧ t = raise e s) ∨ ∃ (n : Nat) (b : BitVec n), t = pack b s := by
  have hfe : ∀ e : ErrorKind, (e = .nullPointer ∨ e = .insufficientRegisters ∨ e = .invalidType) →
      e ≠ .unknown := by
    rintro e (rfl | rfl | rfl) <;> decide
  cases hd : decode v with
  | error e =>
    rw [command_error hd] at h
    obtain ⟨e, h1, h2⟩ | ⟨e, _, h2, h3⟩ | ⟨b, _, hm, _⟩ := runCommand_cases h
    · exact .inl ⟨e, hfe _ (firstError_cases h1), h2⟩
    · cases h2; exact .inl ⟨_, by decide, h3⟩
    · cases hm
  | ok i =>
    rw [command_ok hd] at h
    obtain ⟨n, m, he, -, h1, -⟩ := exec_spec i s
    rw [he] at h
    obtain ⟨e, h3, h4⟩ | ⟨e, _, h4, h5⟩ | ⟨b, _, _, rfl⟩ := runCommand_cases h
    · exact .inl ⟨e, hfe _ (firstError_cases h3), h4⟩
    · rw [(h1 e h4).2.2] at h5; exact .inl ⟨_, by decide, h5⟩
    · exact .inr ⟨_, b, rfl⟩

/-- What an arm must be for `CommandMeans` to hold of it. -/
theorem commandMeans_of {tag : BitVec 8} {need n : Nat} {valid : State → Bool} {ok : State → Prop}
    {mk : CmdFields → Instr} {m : State → BitVec n} {result : State → BitVec 64}
    (ht : ∀ f, (mk f).tag = tag)
    (he : ∀ f s, exec (mk f) s = runCommand need (valid s) f (.ok (m s)) s)
    (hn : 1 ≤ need) (hv : ∀ s, ok s → valid s = true)
    (hr : ∀ s, (m s).setWidth 64 = result s) : CommandMeans tag need ok mk result := by
  intro f s
  refine ⟨ht f, ?_, ?_, ?_, ?_⟩
  · intro h
    rw [he]; exact runCommand_error _ _ (firstError_absent h)
  · intro h1 h2 h3
    rw [he]; exact runCommand_error _ _ (firstError_empty h1 h2 h3)
  · intro h1 h2 h3 h4 h5
    rw [he, hv s h3]; exact runCommand_error _ _ (firstError_short h1 h2 h4 h5)
  · intro h1 h2 h3 h4
    rw [he, hv s h3, runCommand_finish _ _ (firstError_none h1 h2 (by omega) h4), ← hr]
    rfl

end Sys2Proof.Machine
end

