-- ==== Sys2Proof/Tests/Slice0.lean ====
section
/-! SUPPORT. The model's own tests. Expected results are those of spec/95_test_vectors.md and the words
are written out from spec/30_encoding.md; then, for each statement that has hypotheses, a theorem
named witness_<statement> with concrete values that meet them. -/

namespace Sys2Proof.Tests

open Sys2Proof.Machine Host

/-! The well-formedness checks, one ill-formed instruction for each, and the boundary. -/

theorem test_bitpos_of_256_is_ill_formed :
    ¬ (Instr.cvtBOOL ⟨256, 1, true, true, 0⟩).WellFormed := by decide

theorem test_count_of_256_is_ill_formed :
    ¬ (Instr.cvtU8 ⟨0, 256, true, true, 0⟩).WellFormed := by decide

theorem test_fields_of_255_are_well_formed :
    (Instr.cvtU8 ⟨255, 255, true, true, 63⟩).WellFormed := by decide

/-! Decoding, the words written out from the figure of 30_encoding.md R45 (reserved, DP, RP, COUNT,
BITPOS, DTYPE as W K P). -/

theorem test_decode_bits_bool : decode 0b000000_1_1_00000001_00001111_000_00_000#32 =
    .ok (.cvtBOOL ⟨15, 1, true, true, 0⟩) := by rfl

theorem test_decode_bits_s8 : decode 0b000000_1_1_11001000_01100011_001_01_000#32 =
    .ok (.cvtS8 ⟨99, 200, true, true, 0⟩) := by rfl

theorem test_decode_bits_s16ba : decode 0b000000_1_0_00000001_00000000_010_01_001#32 =
    .ok (.cvtS16BA ⟨0, 1, false, true, 0⟩) := by rfl

theorem test_decode_bits_s32cdab : decode 0b000000_0_1_00000010_00000000_011_01_011#32 =
    .ok (.cvtS32CDAB ⟨0, 2, true, false, 0⟩) := by rfl

theorem test_decode_bits_f32badc : decode 0b111111_1_1_00000010_10000000_011_10_010#32 =
    .ok (.cvtF32BADC ⟨128, 2, true, true, 63⟩) := by rfl

theorem test_decode_bits_s64ghefcdab : decode 0b100001_1_1_00000100_00000000_100_01_101#32 =
    .ok (.cvtS64GHEFCDAB ⟨0, 4, true, true, 33⟩) := by rfl

theorem test_decode_bits_f64efghabcd : decode 0b000000_1_1_11111111_00000000_100_10_111#32 =
    .ok (.cvtF64EFGHABCD ⟨0, 255, true, true, 0⟩) := by rfl

theorem test_decode_one_word :
    decode 0x03010000#32 = .ok (.cvtBOOL ⟨0, 1, true, true, 0⟩) ∧
    decode 0x03010020#32 = .ok (.cvtU8 ⟨0, 1, true, true, 0⟩) ∧
    decode 0x03010028#32 = .ok (.cvtS8 ⟨0, 1, true, true, 0⟩) ∧
    decode 0x03010040#32 = .ok (.cvtU16AB ⟨0, 1, true, true, 0⟩) ∧
    decode 0x03010041#32 = .ok (.cvtU16BA ⟨0, 1, true, true, 0⟩) ∧
    decode 0x03010048#32 = .ok (.cvtS16AB ⟨0, 1, true, true, 0⟩) ∧
    decode 0x03010049#32 = .ok (.cvtS16BA ⟨0, 1, true, true, 0⟩) := by
  exact ⟨rfl, rfl, rfl, rfl, rfl, rfl, rfl⟩

theorem test_decode_int32 :
    decode 0x03020060#32 = .ok (.cvtU32ABCD ⟨0, 2, true, true, 0⟩) ∧
    decode 0x03020061#32 = .ok (.cvtU32DCBA ⟨0, 2, true, true, 0⟩) ∧
    decode 0x03020062#32 = .ok (.cvtU32BADC ⟨0, 2, true, true, 0⟩) ∧
    decode 0x03020063#32 = .ok (.cvtU32CDAB ⟨0, 2, true, true, 0⟩) ∧
    decode 0x03020068#32 = .ok (.cvtS32ABCD ⟨0, 2, true, true, 0⟩) ∧
    decode 0x03020069#32 = .ok (.cvtS32DCBA ⟨0, 2, true, true, 0⟩) ∧
    decode 0x0302006A#32 = .ok (.cvtS32BADC ⟨0, 2, true, true, 0⟩) ∧
    decode 0x0302006B#32 = .ok (.cvtS32CDAB ⟨0, 2, true, true, 0⟩) := by
  exact ⟨rfl, rfl, rfl, rfl, rfl, rfl, rfl, rfl⟩

theorem test_decode_float32 :
    decode 0x03020070#32 = .ok (.cvtF32ABCD ⟨0, 2, true, true, 0⟩) ∧
    decode 0x03020071#32 = .ok (.cvtF32DCBA ⟨0, 2, true, true, 0⟩) ∧
    decode 0x03020072#32 = .ok (.cvtF32BADC ⟨0, 2, true, true, 0⟩) ∧
    decode 0x03020073#32 = .ok (.cvtF32CDAB ⟨0, 2, true, true, 0⟩) := by
  exact ⟨rfl, rfl, rfl, rfl⟩

theorem test_decode_u64 :
    decode 0x03040080#32 = .ok (.cvtU64ABCDEFGH ⟨0, 4, true, true, 0⟩) ∧
    decode 0x03040081#32 = .ok (.cvtU64HGFEDCBA ⟨0, 4, true, true, 0⟩) ∧
    decode 0x03040082#32 = .ok (.cvtU64BADCFEHG ⟨0, 4, true, true, 0⟩) ∧
    decode 0x03040083#32 = .ok (.cvtU64CDABGHEF ⟨0, 4, true, true, 0⟩) ∧
    decode 0x03040084#32 = .ok (.cvtU64DCBAHGFE ⟨0, 4, true, true, 0⟩) ∧
    decode 0x03040085#32 = .ok (.cvtU64GHEFCDAB ⟨0, 4, true, true, 0⟩) ∧
    decode 0x03040086#32 = .ok (.cvtU64FEHGBADC ⟨0, 4, true, true, 0⟩) ∧
    decode 0x03040087#32 = .ok (.cvtU64EFGHABCD ⟨0, 4, true, true, 0⟩) := by
  exact ⟨rfl, rfl, rfl, rfl, rfl, rfl, rfl, rfl⟩

theorem test_decode_s64 :
    decode 0x03040088#32 = .ok (.cvtS64ABCDEFGH ⟨0, 4, true, true, 0⟩) ∧
    decode 0x03040089#32 = .ok (.cvtS64HGFEDCBA ⟨0, 4, true, true, 0⟩) ∧
    decode 0x0304008A#32 = .ok (.cvtS64BADCFEHG ⟨0, 4, true, true, 0⟩) ∧
    decode 0x0304008B#32 = .ok (.cvtS64CDABGHEF ⟨0, 4, true, true, 0⟩) ∧
    decode 0x0304008C#32 = .ok (.cvtS64DCBAHGFE ⟨0, 4, true, true, 0⟩) ∧
    decode 0x0304008D#32 = .ok (.cvtS64GHEFCDAB ⟨0, 4, true, true, 0⟩) ∧
    decode 0x0304008E#32 = .ok (.cvtS64FEHGBADC ⟨0, 4, true, true, 0⟩) ∧
    decode 0x0304008F#32 = .ok (.cvtS64EFGHABCD ⟨0, 4, true, true, 0⟩) := by
  exact ⟨rfl, rfl, rfl, rfl, rfl, rfl, rfl, rfl⟩

theorem test_decode_float64 :
    decode 0x03040090#32 = .ok (.cvtF64ABCDEFGH ⟨0, 4, true, true, 0⟩) ∧
    decode 0x03040091#32 = .ok (.cvtF64HGFEDCBA ⟨0, 4, true, true, 0⟩) ∧
    decode 0x03040092#32 = .ok (.cvtF64BADCFEHG ⟨0, 4, true, true, 0⟩) ∧
    decode 0x03040093#32 = .ok (.cvtF64CDABGHEF ⟨0, 4, true, true, 0⟩) ∧
    decode 0x03040094#32 = .ok (.cvtF64DCBAHGFE ⟨0, 4, true, true, 0⟩) ∧
    decode 0x03040095#32 = .ok (.cvtF64GHEFCDAB ⟨0, 4, true, true, 0⟩) ∧
    decode 0x03040096#32 = .ok (.cvtF64FEHGBADC ⟨0, 4, true, true, 0⟩) ∧
    decode 0x03040097#32 = .ok (.cvtF64EFGHABCD ⟨0, 4, true, true, 0⟩) := by
  exact ⟨rfl, rfl, rfl, rfl, rfl, rfl, rfl, rfl⟩

theorem test_reserved_tags_are_rejected_by_name :
    decode 0x03040001#32 = .error (.illegalTag 0x01#8) ∧
    decode 0x03040042#32 = .error (.illegalTag 0x42#8) ∧
    decode 0x03040098#32 = .error (.illegalTag 0x98#8) ∧
    decode 0x030400FF#32 = .error (.illegalTag 0xFF#8) := by
  exact ⟨rfl, rfl, rfl, rfl⟩

theorem test_table_word : decodeTableWord 32 0x03020063 =
    some (.cvtU32CDAB ⟨0, 2, true, true, 0⟩) := by rfl

/-! One command on a small state. -/

/-- The reset state with the operand words and `SCALE` given and 0x55 in `RESULT`. -/
def operands (x0 x1 x2 x3 : Word) (scale : BitVec 64) : State :=
  { State.reset with x0 := x0, x1 := x1, x2 := x2, x3 := x3, scale := scale, result := 0x55#64 }

/-- `STATUS` and `RESULT` after the write of `cmd` to `CMD`. -/
def after (cmd : BitVec 32) (s : State) : Option (BitVec 8 × BitVec 64) :=
  match step { s with pending := [.write (.cmd cmd)] } with
  | .next t => some (t.status, t.result)
  | _ => none

/-- The operand words of 95_test_vectors.md section 2.1, `SCALE` = 1.0. -/
def fourWords : State := operands 0x1234#16 0x5678#16 0x9ABC#16 0xDEF0#16 0x3FF0000000000000#64

/-- The words whose 64-bit values are exact (section 2.6), `SCALE` = 2.0. -/
def smallWords : State := operands 0x0102#16 0x0304#16 0x0000#16 0x0000#16 0x4000000000000000#64

/-- Section 2.1, rows 1 to 3. -/
theorem test_null_pointer :
    after 0x02020060#32 fourWords = some (0x81#8, 0x55#64) ∧
    after 0x01020060#32 fourWords = some (0x81#8, 0x55#64) ∧
    after 0x000000FF#32 fourWords = some (0x81#8, 0x55#64) := by
  decide

/-- Section 2.1, rows 4 to 6: before InvalidType and InvalidBitPosition. -/
theorem test_empty_sequence :
    after 0x03000060#32 fourWords = some (0x84#8, 0x55#64) ∧
    after 0x030000FF#32 fourWords = some (0x84#8, 0x55#64) ∧
    after 0x03001000#32 fourWords = some (0x84#8, 0x55#64) := by
  decide

/-- Section 2.1, rows 13, 16 and 18. -/
theorem test_invalid_type :
    after 0x03040064#32 fourWords = some (0x82#8, 0x55#64) ∧
    after 0x030400A0#32 fourWords = some (0x82#8, 0x55#64) ∧
    after 0x03010064#32 fourWords = some (0x82#8, 0x55#64) := by
  decide

/-- Section 2.1, rows 19, 20, 23. -/
theorem test_short_sequence :
    after 0x03010060#32 fourWords = some (0x84#8, 0x55#64) ∧
    after 0x03010070#32 fourWords = some (0x84#8, 0x55#64) ∧
    after 0x03030080#32 fourWords = some (0x84#8, 0x55#64) := by
  decide

/-- Section 2.1, rows 26 to 28. -/
theorem test_ignored_fields :
    after 0x03FF0080#32 fourWords = some (0x80#8, 0x123456789ABCDF00#64) ∧
    after 0x03C86320#32 fourWords = some (0x80#8, 0x34#64) ∧
    after 0xFF010040#32 fourWords = some (0x80#8, 0x1234#64) := by
  decide

/-- Section 2.2: bit 0 is the least significant, 15 the last position; a NaN in `SCALE` is not read. -/
theorem test_bool :
    after 0x03010F00#32 (operands 0x8001 0x0000 0x0000 0x0000 0x7FF8000000000000) = some (0x80#8, 0x1#64) ∧
    after 0x03011000#32 (operands 0x8001 0x0000 0x0000 0x0000 0x7FF8000000000000) = some (0x83#8, 0x55#64) ∧
    after 0x03010400#32 (operands 0x0110 0x0000 0x0000 0x0000 0x7FF8000000000000) = some (0x80#8, 0x1#64) := by
  decide

/-- Section 2.3: low byte, wrap, negative product. -/
theorem test_u8 :
    after 0x03010020#32 (operands 0x00C8 0x0000 0x0000 0x0000 0x4000000000000000) = some (0x80#8, 0x90#64) ∧
    after 0x03010020#32 (operands 0x0005 0x0000 0x0000 0x0000 0xBFF0000000000000) = some (0x80#8, 0xFB#64) := by
  decide

/-- Section 2.3: truncation toward zero, high byte discarded. -/
theorem test_s8 :
    after 0x03010028#32 (operands 0x00F9 0x0000 0x0000 0x0000 0x3FE0000000000000) = some (0x80#8, 0xFD#64) ∧
    after 0x03010028#32 (operands 0xFF7F 0x0000 0x0000 0x0000 0x4000000000000000) = some (0x80#8, 0xFE#64) := by
  decide

/-- Section 2.4, the rows 0x7FFF and 0xFFFF. -/
theorem test_u16 :
    after 0x03010040#32 (operands 0x7FFF 0x0000 0x0000 0x0000 0x4000000000000000) = some (0x80#8, 0xFFFE#64) ∧
    after 0x03010041#32 (operands 0x7FFF 0x0000 0x0000 0x0000 0x4000000000000000) = some (0x80#8, 0xFEFE#64) ∧
    after 0x03010040#32 (operands 0xFFFF 0x0000 0x0000 0x0000 0x3FB999999999999A) = some (0x80#8, 0x1999#64) ∧
    after 0x03010041#32 (operands 0x1234 0x0000 0x0000 0x0000 0x3FF0000000000000) = some (0x80#8, 0x3412#64) := by
  decide

/-- Section 2.4, the rows 0xFFFF and 0x8000. -/
theorem test_s16 :
    after 0x03010048#32 (operands 0xFFFF 0x0000 0x0000 0x0000 0x3FB999999999999A) = some (0x80#8, 0x0#64) ∧
    after 0x03010049#32 (operands 0x8000 0x0000 0x0000 0x0000 0xBFF0000000000000) = some (0x80#8, 0xFF80#64) := by
  decide

/-- Section 2.5, times 2.0. -/
theorem test_u32 :
    after 0x03020060#32 (operands 0x1234 0x5678 0x0000 0x0000 0x4000000000000000) = some (0x80#8, 0x2468ACF0#64) ∧
    after 0x03020061#32 (operands 0x1234 0x5678 0x0000 0x0000 0x4000000000000000) = some (0x80#8, 0xF0AC6824#64) ∧
    after 0x03020062#32 (operands 0x1234 0x5678 0x0000 0x0000 0x4000000000000000) = some (0x80#8, 0x6824F0AC#64) ∧
    after 0x03020063#32 (operands 0x1234 0x5678 0x0000 0x0000 0x4000000000000000) = some (0x80#8, 0xACF02468#64) := by
  decide

/-- Section 2.5, negative values times 0.5. -/
theorem test_s32 :
    after 0x03020068#32 (operands 0xFFFE 0xFDFC 0x0000 0x0000 0x3FE0000000000000) = some (0x80#8, 0xFFFF7EFE#64) ∧
    after 0x03020069#32 (operands 0xFFFE 0xFDFC 0x0000 0x0000 0x3FE0000000000000) = some (0x80#8, 0xFE7EFF80#64) ∧
    after 0x0302006A#32 (operands 0xFFFE 0xFDFC 0x0000 0x0000 0x3FE0000000000000) = some (0x80#8, 0xFF7FFE7F#64) ∧
    after 0x0302006B#32 (operands 0xFFFE 0xFDFC 0x0000 0x0000 0x3FE0000000000000) = some (0x80#8, 0xFEFE7FFF#64) := by
  decide

/-- Section 2.6: more than 53 significant bits are rounded. -/
theorem test_u64_rounds :
    after 0x03040080#32 fourWords = some (0x80#8, 0x123456789ABCDF00#64) ∧
    after 0x03040081#32 fourWords = some (0x80#8, 0xF0DEBC9A78563800#64) ∧
    after 0x03040082#32 fourWords = some (0x80#8, 0x34127856BC9AF000#64) ∧
    after 0x03040083#32 fourWords = some (0x80#8, 0x56781234DEF09C00#64) ∧
    after 0x03040084#32 fourWords = some (0x80#8, 0x78563412F0DEBC00#64) ∧
    after 0x03040085#32 fourWords = some (0x80#8, 0xDEF09ABC56781000#64) ∧
    after 0x03040086#32 fourWords = some (0x80#8, 0xBC9AF0DE34127800#64) ∧
    after 0x03040087#32 fourWords = some (0x80#8, 0x9ABCDEF012345800#64) := by
  decide

/-- Section 2.6: a negative value is rounded by its magnitude. -/
theorem test_s64_rounds :
    after 0x03040088#32 fourWords = some (0x80#8, 0x123456789ABCDF00#64) ∧
    after 0x03040089#32 fourWords = some (0x80#8, 0xF0DEBC9A78563400#64) ∧
    after 0x0304008A#32 fourWords = some (0x80#8, 0x34127856BC9AF000#64) ∧
    after 0x0304008B#32 fourWords = some (0x80#8, 0x56781234DEF09C00#64) ∧
    after 0x0304008C#32 fourWords = some (0x80#8, 0x78563412F0DEBC00#64) ∧
    after 0x0304008D#32 fourWords = some (0x80#8, 0xDEF09ABC56781200#64) ∧
    after 0x0304008E#32 fourWords = some (0x80#8, 0xBC9AF0DE34127800#64) ∧
    after 0x0304008F#32 fourWords = some (0x80#8, 0x9ABCDEF012345800#64) := by
  decide

/-- Section 2.6: exact values times 2.0. -/
theorem test_s64_exact :
    after 0x03040088#32 smallWords = some (0x80#8, 0x204060800000000#64) ∧
    after 0x03040089#32 smallWords = some (0x80#8, 0x8060402#64) ∧
    after 0x0304008A#32 smallWords = some (0x80#8, 0x402080600000000#64) ∧
    after 0x0304008B#32 smallWords = some (0x80#8, 0x608020400000000#64) ∧
    after 0x0304008C#32 smallWords = some (0x80#8, 0x806040200000000#64) ∧
    after 0x0304008D#32 smallWords = some (0x80#8, 0x6080204#64) ∧
    after 0x0304008E#32 smallWords = some (0x80#8, 0x4020806#64) ∧
    after 0x0304008F#32 smallWords = some (0x80#8, 0x2040608#64) := by
  decide

/-- Section 2.6: the ties that reach 2^64 and 2^63. -/
theorem test_int64_corners :
    after 0x03040080#32 (operands 0xFFFF 0xFFFF 0xFFFF 0xFC00 0x3FF0000000000000) = some (0x80#8, 0x0#64) ∧
    after 0x03040088#32 (operands 0x7FFF 0xFFFF 0xFFFF 0xFE00 0x3FF0000000000000) = some (0x80#8, 0x8000000000000000#64) := by
  decide

/-- Section 2.7: -12.5 in each word order, times 2.0. -/
theorem test_f32_patterns :
    after 0x03020070#32 (operands 0xC148 0x0000 0x0000 0x0000 0x4000000000000000) = some (0x80#8, 0xC1C80000#64) ∧
    after 0x03020071#32 (operands 0x0000 0x48C1 0x0000 0x0000 0x4000000000000000) = some (0x80#8, 0xC1C80000#64) ∧
    after 0x03020072#32 (operands 0x48C1 0x0000 0x0000 0x0000 0x4000000000000000) = some (0x80#8, 0xC1C80000#64) ∧
    after 0x03020073#32 (operands 0x0000 0xC148 0x0000 0x0000 0x4000000000000000) = some (0x80#8, 0xC1C80000#64) := by
  decide

/-- Section 2.7: one rounding, tie to even in the subnormals, overflow. -/
theorem test_f32_rounding :
    after 0x03020070#32 (operands 0x3F80 0x0001 0x0000 0x0000 0x3FF0000010000000) = some (0x80#8, 0x3F800002#64) ∧
    after 0x03020070#32 (operands 0x0000 0x0001 0x0000 0x0000 0x3FF8000000000000) = some (0x80#8, 0x2#64) ∧
    after 0x03020070#32 (operands 0x7F7F 0xFFFF 0x0000 0x0000 0x4000000000000000) = some (0x80#8, 0x7F800000#64) := by
  decide

/-- Section 2.7: 123.456 in each word order, times 10.0. -/
theorem test_f64_patterns :
    after 0x03040090#32 (operands 0x405E 0xDD2F 0x1A9F 0xBE77 0x4024000000000000) = some (0x80#8, 0x40934A3D70A3D70A#64) ∧
    after 0x03040091#32 (operands 0x77BE 0x9F1A 0x2FDD 0x5E40 0x4024000000000000) = some (0x80#8, 0x40934A3D70A3D70A#64) ∧
    after 0x03040092#32 (operands 0x5E40 0x2FDD 0x9F1A 0x77BE 0x4024000000000000) = some (0x80#8, 0x40934A3D70A3D70A#64) ∧
    after 0x03040093#32 (operands 0xDD2F 0x405E 0xBE77 0x1A9F 0x4024000000000000) = some (0x80#8, 0x40934A3D70A3D70A#64) ∧
    after 0x03040094#32 (operands 0x2FDD 0x5E40 0x77BE 0x9F1A 0x4024000000000000) = some (0x80#8, 0x40934A3D70A3D70A#64) ∧
    after 0x03040095#32 (operands 0xBE77 0x1A9F 0xDD2F 0x405E 0x4024000000000000) = some (0x80#8, 0x40934A3D70A3D70A#64) ∧
    after 0x03040096#32 (operands 0x9F1A 0x77BE 0x5E40 0x2FDD 0x4024000000000000) = some (0x80#8, 0x40934A3D70A3D70A#64) ∧
    after 0x03040097#32 (operands 0x1A9F 0xBE77 0x405E 0xDD2F 0x4024000000000000) = some (0x80#8, 0x40934A3D70A3D70A#64) := by
  decide

/-- Section 2.7: gradual underflow, the sign of zero, overflow. -/
theorem test_f64_rounding :
    after 0x03040090#32 (operands 0x0000 0x0000 0x0000 0x0003 0x3FE0000000000000) = some (0x80#8, 0x2#64) ∧
    after 0x03040090#32 (operands 0x0000 0x0000 0x0000 0x0000 0xBFF0000000000000) = some (0x80#8, 0x8000000000000000#64) ∧
    after 0x03040090#32 (operands 0x7FEF 0xFFFF 0xFFFF 0xFFFF 0x4000000000000000) = some (0x80#8, 0x7FF0000000000000#64) := by
  decide

/-- A non-finite product: success, the low 8 bits free, the others zero (45_scaling_numerics.md R145). -/
theorem test_u8_nonfinite : after 0x03010020#32 (operands 0x00FF 0 0 0 0x7FF0000000000000) =
    some (0x80#8, ((Config.nonfiniteInt 0).setWidth 8).setWidth 64) := by rfl

/-- `inf * 0`: success, some quiet NaN (45_scaling_numerics.md R147). -/
theorem test_f64_nan : after 0x03040090#32 (operands 0x7FF0 0 0 0 0) =
    some (0x80#8, Config.nanResult 0 ||| 0x7FF8000000000000#64) := by
  show some (0x80#8, (BitVec.ofNat 64 (quietNaN64 (Config.nanResult 0)).toNat).setWidth 64) = _
  simp [quietNaN64]

/-- With F64_EXCLUDED_PAT = 3 the tag 0x93 is invalid, and its neighbour is not (section 2.1). -/
theorem test_f64_excluded :
    after 0x03040093#32 { fourWords with f64Excluded := some .cdabghef } =
      some (0x82#8, 0x55#64) ∧
    (after 0x03040092#32 { fourWords with f64Excluded := some .cdabghef }).map Prod.fst =
      some 0x80#8 := by
  decide

/-- A read answers, a write of `RESULT` is ignored, a reset restores `SCALE` (20_memory.md R32, R34;
70_reset_and_hazards.md R180). -/
theorem test_host_operations :
    step { fourWords with pending := [.read .x1] } =
      .next { fourWords with answers := [.x1 0x5678#16] } ∧
    step { fourWords with pending := [.write (.result 7#64)] } = .next fourWords ∧
    step { smallWords with pending := [.reset] } = .next State.reset := by
  exact ⟨rfl, rfl, rfl⟩

/-! Witnesses: values that meet the hypotheses of each statement, clause by clause. -/

/-- A state in which the host's next operation writes `v` to `CMD`. -/
def commanded (v : BitVec 32) : State := { fourWords with pending := [.write (.cmd v)] }

/-- Fields with `COUNT` = `n` and both presence bits set. -/
def counted (n : Nat) : CmdFields := ⟨0, n, true, true, 0⟩

theorem witness_DecodeOfEncodeIsIdentity :
    (Instr.cvtBOOL ⟨0, 0, false, false, 0⟩).WellFormed ∧
    (Instr.cvtF64EFGHABCD ⟨255, 255, true, true, 63⟩).WellFormed := by
  decide

theorem witness_EncodeOfDecodeIsIdentity :
    decode 0xFFFFFF97#32 = .ok (.cvtF64EFGHABCD ⟨255, 255, true, true, 63⟩) ∧
    decode 0x00000000#32 = .ok (.cvtBOOL ⟨0, 0, false, false, 0⟩) := by
  exact ⟨rfl, rfl⟩

theorem witness_ReservedTagsRaiseInvalidType_reserved :
    (commanded 0x03010098#32).Commands 0x03010098#32 [] ∧
    (0x03010098#32).getLsbD 24 = true ∧ (0x03010098#32).getLsbD 25 = true ∧
    (0x03010098#32).extractLsb' 16 8 ≠ 0#8 ∧ ReservedTag (dtypeOf 0x03010098#32) := by
  decide

theorem witness_ReservedTagsRaiseInvalidType_excluded :
    (0x03010093#32).getLsbD 24 = true ∧ (0x03010093#32).getLsbD 25 = true ∧
    (0x03010093#32).extractLsb' 16 8 ≠ 0#8 ∧
    State.Commands { commanded 0x03010093#32 with f64Excluded := some .cdabghef }
      0x03010093#32 [] ∧
    State.ExcludedTag { commanded 0x03010093#32 with f64Excluded := some .cdabghef }
      (dtypeOf 0x03010093#32) := by
  decide

theorem witness_MissingPresenceBitRaisesNullPointer :
    (commanded 0x02020060#32).Commands 0x02020060#32 [] ∧ (0x02020060#32).getLsbD 24 = false ∧
    (commanded 0x01020060#32).Commands 0x01020060#32 [] ∧ (0x01020060#32).getLsbD 25 = false := by
  decide

theorem witness_EmptySequenceRaisesInsufficientRegisters :
    (commanded 0x030000FF#32).Commands 0x030000FF#32 [] ∧
    (0x030000FF#32).getLsbD 24 = true ∧ (0x030000FF#32).getLsbD 25 = true ∧
    (0x030000FF#32).extractLsb' 16 8 = 0#8 := by
  decide

/-- COUNT 1 and 3 below the needs 2 and 4, COUNT 4 at the need. -/
theorem witness_ShortSequenceRaisesInsufficientRegisters :
    decode 0x03010060#32 = .ok (.cvtU32ABCD (counted 1)) ∧
    decode 0x03030080#32 = .ok (.cvtU64ABCDEFGH (counted 3)) ∧
    decode 0x03040080#32 = .ok (.cvtU64ABCDEFGH (counted 4)) ∧
    ¬ (commanded 0x03030080#32).ExcludedTag (dtypeOf 0x03030080#32) ∧
    ((0x03010060#32).extractLsb' 16 8).toNat < needOf (dtypeOf 0x03010060#32) ∧
    ((0x03030080#32).extractLsb' 16 8).toNat < needOf (dtypeOf 0x03030080#32) ∧
    needOf (dtypeOf 0x03040080#32) ≤ ((0x03040080#32).extractLsb' 16 8).toNat := by
  exact ⟨rfl, rfl, rfl, by decide, by decide, by decide, by decide⟩

theorem witness_FirstHoldingCheckWins :
    (commanded 0x000000FF#32).Commands 0x000000FF#32 [] ∧
    (commanded 0x03001000#32).Commands 0x03001000#32 [] := by
  exact ⟨rfl, rfl⟩

theorem witness_FailedCommandChangesOnlyStatus :
    ∃ t, (commanded 0x03011000#32).Commands 0x03011000#32 [] ∧
      step (commanded 0x03011000#32) = .next t ∧ t.status ≠ 0x80#8 :=
  ⟨_, rfl, rfl, by decide⟩

theorem witness_SuccessfulCommandPacksMember :
    ∃ t, (commanded 0x03010F00#32).Commands 0x03010F00#32 [] ∧
      step (commanded 0x03010F00#32) = .next t ∧ t.status = 0x80#8 :=
  ⟨_, rfl, rfl, rfl⟩

/-- A command writes no operand register; neither does a read. -/
theorem witness_OperandRegistersPersist :
    (∃ t, step (commanded 0x03010F00#32) = .next t ∧
      (commanded 0x03010F00#32).pending.head? ≠ some .reset ∧
      (∀ w, (commanded 0x03010F00#32).pending.head? ≠ some (.write (.x0 w))) ∧
      ∀ w, (commanded 0x03010F00#32).pending.head? ≠ some (.write (.scale w))) :=
  ⟨_, rfl, by decide, by intro w; simp [commanded], by intro w; simp [commanded]⟩

theorem witness_InstructionsWriteOnlyStatusAndResult :
    (∃ t, exec (.cvtU8 (counted 1)) fourWords = .next t) ∧
    ∃ t, exec (.cvtU8 (counted 0)) fourWords = .next t ∧ t.status ≠ 0x80#8 :=
  ⟨⟨_, rfl⟩, _, rfl, by decide⟩

/-- The same operands with another STATUS, CMD and RESULT, one success and one error. -/
theorem witness_OutcomeDependsOnInputsAlone :
    (∃ t w, exec (.cvtBOOL (counted 1)) fourWords = .next t ∧
      exec (.cvtBOOL (counted 1)) { fourWords with status := 0x83#8, result := 9#64 } = .next w ∧
      t.status = 0x80#8) ∧
    ∃ t w, exec (.cvtBOOL (counted 0)) fourWords = .next t ∧
      exec (.cvtBOOL (counted 0)) { fourWords with status := 0x83#8, result := 9#64 } = .next w ∧
      t.status ≠ 0x80#8 :=
  ⟨⟨_, _, rfl, rfl, rfl⟩, _, _, rfl, rfl, by decide⟩

theorem witness_FieldsNotConsultedHaveNoEffect :
    (Instr.cvtU32ABCD ⟨0, 2, true, true, 0⟩).tag = (Instr.cvtU32ABCD ⟨255, 255, true, true, 63⟩).tag ∧
    needOf (Instr.cvtU32ABCD ⟨0, 2, true, true, 0⟩).tag ≤ 2 ∧
    needOf (Instr.cvtBOOL ⟨15, 1, true, true, 0⟩).tag ≤ 1 := by
  decide

theorem witness_RegistersNotReadHaveNoEffect :
    (∃ t, exec (.cvtBOOL (counted 1)) fourWords = .next t ∧
      needOf (Instr.cvtBOOL (counted 1)).tag = 1 ∧ (Instr.cvtBOOL (counted 1)).tag = 0#8) ∧
    ∃ t, exec (.cvtF32CDAB (counted 2)) fourWords = .next t ∧
      needOf (Instr.cvtF32CDAB (counted 2)).tag = 2 :=
  ⟨⟨_, rfl, by decide, rfl⟩, _, rfl, by decide⟩

theorem witness_ReservedBitsAreStoredAndIgnored :
    (0x03010000#32).setWidth 26 = (0xFF010000#32).setWidth 26 ∧
    ∃ t, step { fourWords with pending := [.write (.cmd 0x03010000#32)] } = .next t :=
  ⟨by decide, _, rfl⟩

/-- A success that draws nothing, and an error. -/
theorem witness_RepeatedCommandRepeatsItsOutputs :
    (∃ t u, exec (.cvtBOOL (counted 1)) fourWords = .next t ∧
      exec (.cvtBOOL (counted 1)) t = .next u ∧
      ∀ d, ∃ t', exec (.cvtBOOL (counted 1)) { fourWords with draws := d } = .next t' ∧
        t'.result = t.result) ∧
    ∃ t u, exec (.cvtBOOL ⟨16, 1, true, true, 0⟩) fourWords = .next t ∧
      exec (.cvtBOOL ⟨16, 1, true, true, 0⟩) t = .next u ∧ t.status ≠ 0x80#8 :=
  ⟨⟨_, _, rfl, rfl, fun _ => ⟨_, rfl, rfl⟩⟩, _, _, rfl, rfl, by decide⟩

theorem witness_StepRunsTheDecodedInstruction :
    (commanded 0x03010020#32).Commands 0x03010020#32 [] ∧
    decode 0x03010020#32 = .ok (.cvtU8 (counted 1)) ∧
    (commanded 0x030100FF#32).Commands 0x030100FF#32 [] ∧
    decode 0x030100FF#32 = .error (.illegalTag 0xFF#8) := by
  exact ⟨rfl, rfl, rfl, rfl⟩

theorem witness_PlacedWordRunsNext : (Instr.cvtS64FEHGBADC ⟨255, 255, true, true, 63⟩).WellFormed := by
  decide

theorem witness_HostAccessesReadAndStoreWholeRegisters :
    (∀ k : Reg, State.pending { fourWords with pending := [.read k] } = .read k :: []) ∧
    State.pending { fourWords with pending := [.write (.x3 0xFFFF#16)] } =
      .write (.x3 0xFFFF#16) :: [] ∧
    State.pending { fourWords with pending := [.write (.scale 0#64)] } =
      .write (.scale 0#64) :: [] := by
  exact ⟨fun _ => rfl, rfl, rfl⟩

theorem witness_StatusAndResultWritesAreIgnored :
    State.pending { fourWords with pending := [.write (.status 0#8)] } = .write (.status 0#8) :: [] ∧
    State.pending { fourWords with pending := [.write (.result 1#64)] } =
      .write (.result 1#64) :: [] ∧
    ∃ t, step { fourWords with pending := [.write (.x0 1#16)] } = .next t ∧
      ∀ v, State.pending { fourWords with pending := [.write (.x0 1#16)] } ≠ [.write (.cmd v)] := by
  exact ⟨rfl, rfl, _, rfl, by intro v; simp⟩

theorem witness_ReadAfterWriteAnswersTheWrittenValue :
    State.pending { fourWords with pending := [.write (.cmd 0x00000000#32), .read .cmd] } =
      .write (.cmd 0x00000000#32) :: .read .cmd :: [] ∧
    State.pending { fourWords with pending := [.write (.x3 7#16), .read .x3] } =
      .write (.x3 7#16) :: .read .x3 :: [] := by
  exact ⟨rfl, rfl⟩

theorem witness_ResetSetsEveryRegisterAndRunsNothing :
    State.pending { fourWords with pending := [.reset] } = .reset :: [] ∧ fourWords.pending = [] ∧
    (∃ t, step { fourWords with pending := [.read .status] } = .next t) ∧
    State.pending { fourWords with pending := [.read .status] } ≠ [.reset] ∧
    ∀ r, State.pending { fourWords with pending := [.read .status] } ≠ [.write r] := by
  exact ⟨rfl, rfl, ⟨_, rfl⟩, by decide, by intro r; simp⟩

/-- Both sides of the invariant: before any command, and with DONE set and the largest code. -/
theorem witness_EveryStepKeepsTheStatusInvariant :
    State.reset.Inv ∧ (∃ t, step State.reset = .next t) ∧
    State.Inv { commanded 0x03010020#32 with status := 0x84#8 } ∧
    ∃ t, step { commanded 0x03010020#32 with status := 0x84#8 } = .next t := by
  exact ⟨by decide, ⟨_, rfl⟩, by decide, ⟨_, rfl⟩⟩

theorem witness_DoneIsClearedByResetOnly :
    (∃ t, step { commanded 0x03010020#32 with status := 0x81#8 } = .next t) ∧
    doneOf 0x81#8 = true ∧ (commanded 0x03010020#32).pending.head? ≠ some .reset ∧
    (commanded 0x03010020#32).pending.head? = some (.write (.cmd 0x03010020#32)) := by
  exact ⟨⟨_, rfl⟩, by decide, by decide, rfl⟩

/-- BITPOS 15 and 16, COUNT 0 and 1, each presence bit missing. -/
theorem witness_BooleanCommand :
    CmdFields.rp ⟨0, 0, false, true, 0⟩ = false ∧ CmdFields.dp ⟨0, 0, true, false, 0⟩ = false ∧
    (counted 0).rp = true ∧ (counted 0).dp = true ∧ (counted 0).count = 0 ∧
    CmdFields.bitpos ⟨15, 1, true, true, 0⟩ ≤ 15 ∧ 15 < CmdFields.bitpos ⟨16, 1, true, true, 0⟩ ∧
    1 ≤ CmdFields.count ⟨15, 1, true, true, 0⟩ := by
  decide

/-- The clauses of a command of need 1: missing presence bits, COUNT 0, COUNT 1. No COUNT of at least
1 is short of 1. -/
theorem witness_EightBitCommands :
    CmdFields.rp ⟨0, 0, false, true, 0⟩ = false ∧ (counted 0).count = 0 ∧ 1 ≤ (counted 1).count ∧
    (counted 1).rp = true ∧ (counted 1).dp = true := by
  decide

theorem witness_SixteenBitCommands : 1 ≤ (counted 1).count ∧ (counted 1).rp = true ∧
    (counted 1).dp = true ∧ CmdFields.dp ⟨0, 0, true, false, 0⟩ = false := by
  decide

/-- The clauses of a command of need 2: COUNT 0, 1 and 2. -/
theorem witness_Unsigned32BitCommands : (counted 0).count = 0 ∧
    (1 ≤ (counted 1).count ∧ (counted 1).count < 2) ∧ 2 ≤ (counted 2).count ∧
    (counted 2).rp = true ∧ (counted 2).dp = true := by
  decide

theorem witness_Signed32BitCommands : (counted 0).count = 0 ∧
    (1 ≤ (counted 1).count ∧ (counted 1).count < 2) ∧ 2 ≤ (counted 255).count := by
  decide

theorem witness_Float32Commands : (counted 0).count = 0 ∧
    (1 ≤ (counted 1).count ∧ (counted 1).count < 2) ∧ 2 ≤ (counted 2).count := by
  decide

/-- The clauses of a command of need 4: COUNT 0, 1, 3 and 4. -/
theorem witness_Unsigned64BitCommands : (counted 0).count = 0 ∧
    (1 ≤ (counted 1).count ∧ (counted 1).count < 4) ∧
    (1 ≤ (counted 3).count ∧ (counted 3).count < 4) ∧ 4 ≤ (counted 4).count := by
  decide

theorem witness_Signed64BitCommands : (counted 0).count = 0 ∧
    (1 ≤ (counted 3).count ∧ (counted 3).count < 4) ∧ 4 ≤ (counted 4).count := by
  decide

/-- F64_EXCLUDED_PAT at its default, and at another pattern than the command's. -/
theorem witness_Float64Commands : fourWords.f64Excluded ≠ some .abcdefgh ∧
    State.f64Excluded { fourWords with f64Excluded := some .hgfedcba } ≠ some .abcdefgh ∧
    (1 ≤ (counted 3).count ∧ (counted 3).count < 4) ∧ 4 ≤ (counted 4).count := by
  decide

theorem witness_ExcludedFloat64TagIsInvalidType :
    (counted 1).rp = true ∧ (counted 1).dp = true ∧ 1 ≤ (counted 1).count ∧
    ∀ p, State.f64Excluded { fourWords with f64Excluded := some p } = some p := by
  exact ⟨rfl, rfl, by decide, fun _ => rfl⟩

theorem witness_IntegerReadingsAreUnsignedAndTwosComplement :
    (0x7F#8).getLsbD 7 = false ∧ (0x80#8).getLsbD 7 = true := by
  decide

/-- The largest magnitude of each sign, the largest exact integer, an exact multiple, a leading bit. -/
theorem witness_IntegerConversionIsNearestEven :
    (18446744073709551616 : Int).natAbs ≤ 2 ^ 64 ∧ (-18446744073709551616 : Int).natAbs ≤ 2 ^ 64 ∧
    (9007199254740991 : Int).natAbs < 2 ^ 53 ∧ (18446744073709551616 : Int) = 1 * 2 ^ 64 ∧
    2 ^ 53 ≤ (9007199254740993 : Int).natAbs ∧ (9007199254740993 : Int).natAbs < 2 ^ (53 + 1) := by
  norm_num

/-- The largest finite datum, a NaN, the infinities, the zeros. -/
theorem witness_ProductIsCorrectlyRounded :
    (f64 0x7FEFFFFFFFFFFFFF#64).isFinite = true ∧ (f64 0x0000000000000001#64).isFinite = true ∧
    f64 0x7FF0000000000001#64 = .nan ∧ f64 0xFFF0000000000000#64 = .inf true ∧
    ((f64 0x8000000000000000#64).isFinite = true ∧ (f64 0x8000000000000000#64).value = 0) ∧
    (f64 0x0000000000000001#64).value ≠ 0 := by
  refine ⟨by decide, by decide, by decide, by decide, ⟨by decide, ?_⟩, ?_⟩
  · rw [show f64 0x8000000000000000#64 = .fin true 0 binary64.minExp by decide, Datum.value_zero]
  · rw [show f64 0x0000000000000001#64 = .fin false 1 binary64.minExp by decide, Ne,
      Datum.value_zero]
    decide

theorem witness_Binary32WidensExactly :
    (f32 0x7F7FFFFF#32).isFinite = true ∧ (f32 0x80000000#32).isFinite = true ∧
    f32 0xFF800000#32 = .inf true ∧ f32 0x7F800001#32 = .nan := by
  decide

theorem witness_Binary64NarrowsToNearestEven :
    (f64 0x7FEFFFFFFFFFFFFF#64).isFinite = true ∧ (f64 0x8000000000000000#64).isFinite = true ∧
    f64 0xFFF0000000000000#64 = .inf true ∧ f64 0xFFFFFFFFFFFFFFFF#64 = .nan := by
  decide

theorem witness_WrapIsReductionModuloTwoToTheN :
    (0 : Int) ≤ 255 ∧ (255 : Int) < 2 ^ 8 ∧ -(2 ^ 7 : Int) ≤ -128 ∧ (127 : Int) < 2 ^ 7 := by
  decide

/-- 1 times 2^60 is exactly 2^(52 + 8). -/
theorem witness_HugeProductsWrapToZero :
    (scaledProduct 1 0x43B0000000000000#64).isFinite = true ∧
    (2 : ℚ) ^ (52 + 8) ≤ |(scaledProduct 1 0x43B0000000000000#64).value| := by
  rw [show scaledProduct 1 0x43B0000000000000#64 = .fin false (2 ^ 52) 8 by decide,
    Datum.abs_value]
  exact ⟨rfl, by norm_num⟩

theorem witness_ScaleIntTruncatesAndWrapsTheProduct :
    (fmul64 (i2f64 255) (f64 0x3FE0000000000000#64)).isFinite = true ∧
    (fmul64 (i2f64 0) (f64 0x7FF0000000000000#64)).isFinite = false := by
  decide

/-- The largest SCALE below 2^960 is finite; an infinite SCALE and an overflow are not. -/
theorem witness_NonfiniteProductHappensExactlyWhen :
    (18446744073709551616 : Int).natAbs ≤ 2 ^ 64 ∧
    ((f64 0x7BEFFFFFFFFFFFFF#64).isFinite = true ∧
      |(f64 0x7BEFFFFFFFFFFFFF#64).value| < 2 ^ 960) ∧
    (scaledProduct 1 0x7FF0000000000000#64).isFinite = false ∧
    (scaledProduct 2 0x7FEFFFFFFFFFFFFF#64).isFinite = false := by
  refine ⟨by decide, ⟨by decide, ?_⟩, by decide, by decide⟩
  rw [show f64 0x7BEFFFFFFFFFFFFF#64 = .fin false (2 ^ 53 - 1) 907 by decide, Datum.abs_value,
    show (2 : ℚ) ^ 960 = 2 ^ 53 * 2 ^ 907 from pow_add 2 53 907]
  have h : (0 : ℚ) < 2 ^ 907 := by positivity
  rw [show (2 : ℚ) ^ (907 : Int) = 2 ^ 907 from zpow_natCast 2 907]
  exact mul_lt_mul_of_pos_right (by norm_num) h

/-- 2^53 - 1 itself, and a value with 53 significant bits and trailing zeros, of either sign. -/
theorem witness_ScaleOneIsTheIdentityWithin53Bits :
    (9007199254740991 : Int).natAbs < 2 ^ 53 ∧
    uint 0x001FFFFFFFFFFFFF#64 = 9007199254740991 * 2 ^ 0 ∧
    uint 0xFFFFFFFFFFFFF800#64 = 9007199254740991 * 2 ^ 11 ∧
    sint 0x8000000000000000#64 = -1 * 2 ^ 63 := by
  decide

theorem witness_ScaleOnePrecisionCorners :
    0xFFFFFFFFFFFFFC00 ≤ (0xFFFFFFFFFFFFFC00#64).toNat ∧
    0x7FFFFFFFFFFFFE00 ≤ (0x7FFFFFFFFFFFFE00#64).toNat ∧
    (0x7FFFFFFFFFFFFFFF#64).toNat ≤ 0x7FFFFFFFFFFFFFFF := by
  decide

theorem witness_ZeroLawsOfScaling :
    (f64 0xFFEFFFFFFFFFFFFF#64).isFinite = true ∧ (-18446744073709551616 : Int).natAbs ≤ 2 ^ 64 := by
  decide

/-- A product that is a number, one that is a NaN, a raw value that is none: in both formats. -/
theorem witness_ScaledFloatEncodesTheRoundedProduct :
    f64to32 (fmul64 (f32to64 (f32 0xC1480000#32)) (f64 0x4000000000000000#64)) ≠ .nan ∧
    f64to32 (fmul64 (f32to64 (f32 0x7F800000#32)) (f64 0#64)) = .nan ∧
    f32 0xFF800000#32 ≠ .nan ∧
    fmul64 (f64 0xC004000000000000#64) (f64 0x4010000000000000#64) ≠ .nan ∧
    fmul64 (f64 0x7FF0000000000000#64) (f64 0#64) = .nan ∧ f64 0xFFF0000000000000#64 ≠ .nan := by
  decide

/-- A NaN product in both formats, and quiet NaNs at the ends of the range. -/
theorem witness_NanResultIsSomeQuietNan :
    f64to32 (fmul64 (f32to64 (f32 0x7FC00000#32)) (f64 0x3FF0000000000000#64)) = .nan ∧
    0xFFFFFFFF#32 &&& 0x7FC00000#32 = 0x7FC00000#32 ∧
    0x7FC00000#32 &&& 0x7FC00000#32 = 0x7FC00000#32 ∧
    fmul64 (f64 0x7FF0000000000000#64) (f64 0x8000000000000000#64) = .nan ∧
    0xFFFFFFFFFFFFFFFF#64 &&& 0x7FF8000000000000#64 = 0x7FF8000000000000#64 ∧
    0x7FF8000000000000#64 &&& 0x7FF8000000000000#64 = 0x7FF8000000000000#64 := by
  decide

end Sys2Proof.Tests
end

section
/-! PROOFS. The family 10_state.md: what the host's registers hold, after a reset and across a step. -/

namespace Sys2Proof.Machine

/-- The two states hold the same operands: `x[0..3]` and `SCALE`, the registers that only the host
and a reset set (10_state.md R12, R13). -/
def SameOperands (s t : State) : Prop :=
  t.x0 = s.x0 ∧ t.x1 = s.x1 ∧ t.x2 = s.x2 ∧ t.x3 = s.x3 ∧ t.scale = s.scale

theorem sameOperands_refl (s : State) : SameOperands s s := ⟨rfl, rfl, rfl, rfl, rfl⟩

theorem sameOperands_raise (e : ErrorKind) (s : State) : SameOperands s (raise e s) :=
  ⟨raise_x0 e s, raise_x1 e s, raise_x2 e s, raise_x3 e s, raise_scale e s⟩

theorem sameOperands_pack {n : Nat} (b : BitVec n) (s : State) : SameOperands s (pack b s) :=
  ⟨pack_x0 b s, pack_x1 b s, pack_x2 b s, pack_x3 b s, pack_scale b s⟩

/-- A command clears and writes none of its operands (10_state.md R12). -/
theorem sameOperands_command {v : BitVec 32} {s t : State} (h : command v s = .next t) :
    SameOperands s t := by
  obtain ⟨e, rfl⟩ | ⟨n, b, rfl⟩ := command_cases h
  · exact sameOperands_raise e s
  · exact sameOperands_pack b s

/-- All a step that is no reset can do to the operands: leave them, or store the host's write into
them. A write of `CMD` is the second case, since its command adds nothing to the store. -/
theorem step_operands {s t : State} (h : step s = .next t) (hr : s.pending.head? ≠ some .reset) :
    SameOperands s t ∨ ∃ r, s.pending.head? = some (.write r) ∧ SameOperands (regStore r s) t := by
  obtain ⟨-, rfl⟩ | ⟨k, rest, -, rfl⟩ | ⟨r, rest, hp, -, rfl⟩ | ⟨rest, hp, -⟩ | ⟨v, rest, hp, -⟩ :=
    step_cases h
  case inl => exact .inl (sameOperands_refl t)
  case inr.inl => exact .inl ⟨rfl, rfl, rfl, rfl, rfl⟩
  case inr.inr.inl =>
    refine .inr ⟨r, by rw [hp]; rfl, ?_⟩
    cases r <;> exact ⟨rfl, rfl, rfl, rfl, rfl⟩
  case inr.inr.inr.inl => exact absurd (by rw [hp]; rfl) hr
  case inr.inr.inr.inr =>
    rw [step_command hp] at h
    have kept := sameOperands_command h
    exact .inr ⟨.cmd v, by rw [hp]; rfl, kept⟩

/-! A store leaves each operand register that it does not name (20_memory.md R33). -/

section
variable {r : RegVal} (s : State)

theorem regStore_keeps_x0 (h : ∀ w, r ≠ .x0 w) : (regStore r s).x0 = s.x0 := by
  cases r with
  | x0 w => exact absurd rfl (h w)
  | _ => rfl

theorem regStore_keeps_x1 (h : ∀ w, r ≠ .x1 w) : (regStore r s).x1 = s.x1 := by
  cases r with
  | x1 w => exact absurd rfl (h w)
  | _ => rfl

theorem regStore_keeps_x2 (h : ∀ w, r ≠ .x2 w) : (regStore r s).x2 = s.x2 := by
  cases r with
  | x2 w => exact absurd rfl (h w)
  | _ => rfl

theorem regStore_keeps_x3 (h : ∀ w, r ≠ .x3 w) : (regStore r s).x3 = s.x3 := by
  cases r with
  | x3 w => exact absurd rfl (h w)
  | _ => rfl

theorem regStore_keeps_scale (h : ∀ w, r ≠ .scale w) : (regStore r s).scale = s.scale := by
  cases r with
  | scale w => exact absurd rfl (h w)
  | _ => rfl

end

/-- Settles O13: a step that is no reset leaves the operands or stores one of the host's writes, and
a store changes the register it names alone. -/
theorem operandRegistersPersist : Obligations.OperandRegistersPersist := by
  intro s t h hr
  obtain ⟨h0, h1, h2, h3, hs⟩ | ⟨r, hp, h0, h1, h2, h3, hs⟩ := step_operands h hr
  · exact ⟨fun _ => h0, fun _ => h1, fun _ => h2, fun _ => h3, fun _ => hs⟩
  · have other {n : Nat} {g : BitVec n → RegVal}
        (hw : ∀ w, s.pending.head? ≠ some (.write (g w))) (w : BitVec n) : r ≠ g w :=
      fun hrw => hw w (hrw ▸ hp)
    exact ⟨fun hw => h0.trans (regStore_keeps_x0 s (other hw)),
      fun hw => h1.trans (regStore_keeps_x1 s (other hw)),
      fun hw => h2.trans (regStore_keeps_x2 s (other hw)),
      fun hw => h3.trans (regStore_keeps_x3 s (other hw)),
      fun hw => hs.trans (regStore_keeps_scale s (other hw))⟩

/-- Settles O26: each clause is one row of the reset table (10_state.md R27), read off
`State.reset`. -/
theorem resetStateHoldsTheStatedValues : Obligations.ResetStateHoldsTheStatedValues :=
  ⟨rfl, rfl, rfl, rfl, rfl, rfl, rfl, rfl⟩

end Sys2Proof.Machine
end

section
/-! PROOFS. The family 20_memory.md: what the host's reads and writes of the registers do. -/

namespace Sys2Proof.Machine

/-- A write of a register other than `CMD` is its store and nothing more (20_memory.md R33, R34). -/
theorem step_write {s : State} {r : RegVal} {rest : List HostOp}
    (hp : s.pending = .write r :: rest) (hr : ∀ v, r ≠ .cmd v) :
    step s = .next (regStore r { s with pending := rest }) := by
  simp only [step, takeHostOp_next hp, hostOp_write hr]

/-- Only a command and a reset write `STATUS` and `RESULT`: waiting, a read and a store leave both
(20_memory.md R34). -/
theorem step_keeps_status_result {s t : State} (h : step s = .next t)
    (hr : s.pending.head? ≠ some .reset) (hc : ∀ v, s.pending.head? ≠ some (.write (.cmd v))) :
    t.status = s.status ∧ t.result = s.result := by
  obtain ⟨-, rfl⟩ | ⟨k, rest, -, rfl⟩ | ⟨r, rest, -, -, rfl⟩ | ⟨rest, hp, -⟩ | ⟨v, rest, hp, -⟩ :=
    step_cases h
  case inl => exact ⟨rfl, rfl⟩
  case inr.inl => exact ⟨rfl, rfl⟩
  case inr.inr.inl => exact ⟨regStore_status r _, regStore_result r _⟩
  case inr.inr.inr.inl => exact absurd (by rw [hp]; rfl) hr
  case inr.inr.inr.inr => exact absurd (by rw [hp]; rfl) (hc v)

/-- Settles O24: the store of a `STATUS` or `RESULT` write is the identity, and the second clause is
the frame of every step that is neither command nor reset. -/
theorem statusAndResultWritesAreIgnored : Obligations.StatusAndResultWritesAreIgnored := by
  refine ⟨fun s rest => ⟨fun v hp => ?_, fun v hp => ?_⟩, fun s t => step_keeps_status_result⟩
  · rw [step_write hp (by simp), regStore_ignores_status]
  · rw [step_write hp (by simp), regStore_ignores_result]

end Sys2Proof.Machine
end

section
/-! PROOFS. The family 30_encoding.md: which tags are illegal, and what the reserved bits do. -/

namespace Sys2Proof.Machine

/-! The decoder, by what the tag table answers (30_encoding.md R52, R53). -/

theorem decode_of_row {v : BitVec 32} {r : TagRow} (h : lookupTag (dtypeOf v) = some r) :
    decode v = .ok (r.make (fieldsOf v)) := by
  simp [decode, h]

theorem decode_of_no_row {v : BitVec 32} (h : lookupTag (dtypeOf v) = none) :
    decode v = .error (.illegalTag (dtypeOf v)) := by
  simp [decode, h]

/-- A word decodes to nothing exactly when the table has no row for its tag. -/
theorem decode_illegalTag_iff {v : BitVec 32} :
    decode v = .error (.illegalTag (dtypeOf v)) ↔ lookupTag (dtypeOf v) = none := by
  cases h : lookupTag (dtypeOf v) with
  | none => simp [decode_of_no_row h]
  | some r => simp [decode_of_row h]

/-! The sub-field list of R53 against the table of R50. -/

/-- No instruction has a reserved tag. -/
theorem not_reservedTag_tag (i : Instr) : ¬ ReservedTag i.tag := by
  cases i <;> simp only [Instr.tag] <;> decide

/-- R53 leaves no gap: every tag it does not reserve has a row in the table. -/
theorem lookupTag_isSome_of_not_reservedTag :
    ∀ t : BitVec 8, ¬ ReservedTag t → (lookupTag t).isSome = true := by
  decide

/-- The tags without a row are the reserved ones (30_encoding.md R53). -/
theorem lookupTag_eq_none_iff {t : BitVec 8} : lookupTag t = none ↔ ReservedTag t := by
  constructor
  · intro h
    by_contra hr
    simpa [h] using lookupTag_isSome_of_not_reservedTag t hr
  · intro hr
    cases h : lookupTag t with
    | none => rfl
    | some r =>
      obtain ⟨hd, hmake⟩ := lookupTag_row h
      have htag := (hmake ⟨0, 0, false, false, 0⟩).1
      exact absurd (hd ▸ hr) (htag ▸ not_reservedTag_tag _)

/-- Tags by width class: the first `n` classes, 32 tags each (30_encoding.md R48). -/
theorem range_eq_flatMap_widthClass (n : Nat) :
    List.range (32 * n) = (List.range n).flatMap fun w => List.range' (32 * w) 32 := by
  induction n with
  | zero => rfl
  | succ n ih =>
    rw [List.range_succ, List.flatMap_append, ← ih, List.flatMap_singleton, Nat.mul_succ,
      List.range_eq_range', List.range_eq_range']
    simpa using (List.range'_append_1 (s := 0) (m := 32 * n) (n := 32)).symm

/-- Of the 256 tags 213 are reserved (30_encoding.md R53): counted in each width class, and the
eight counts added up. -/
theorem length_reservedTags :
    ((List.range 256).filter fun t => decide (ReservedTag (BitVec.ofNat 8 t))).length = 213 := by
  rw [range_eq_flatMap_widthClass 8, List.filter_flatMap, List.length_flatMap]
  decide

/-! Commands of an invalid tag (40_dispatch.md R64). -/

/-- With both presence bits set and a `COUNT` of at least 1, a command whose tag is reserved or
excluded raises InvalidType: a reserved tag decodes to nothing, and of an excluded one the
dispatcher's third check says that it is not valid. -/
theorem command_invalidType {v : BitVec 32} {s : State} (hr : v.getLsbD 24 = true)
    (hd : v.getLsbD 25 = true) (hc : v.extractLsb' 16 8 ≠ 0#8)
    (ht : ReservedTag (dtypeOf v) ∨ s.ExcludedTag (dtypeOf v)) :
    command v s = .next (raise .invalidType s) := by
  have hcount : 1 ≤ (fieldsOf v).count := Nat.one_le_iff_ne_zero.2 fun h0 =>
    hc (BitVec.eq_of_toNat_eq h0)
  have invalid {need : Nat} : firstError need false (fieldsOf v) = some .invalidType :=
    firstError_invalid hr hd hcount
  cases hdec : decode v with
  | error e =>
    rw [command_error hdec]
    exact runCommand_error _ _ invalid
  | ok i =>
    obtain ⟨htag, hfields⟩ := decode_ok hdec
    obtain ⟨n, m, hexec, -⟩ := exec_spec i s
    have hex : s.ExcludedTag (dtypeOf v) := ht.resolve_left (htag ▸ not_reservedTag_tag i)
    rw [command_ok hdec, hexec, htag, hfields, decide_eq_false (not_not.2 hex)]
    exact runCommand_error _ _ invalid

/-- Settles O4: the reserved tags are those without a row in the table, and the command of a
reserved or excluded tag raises InvalidType. -/
theorem reservedTagsRaiseInvalidType : Obligations.ReservedTagsRaiseInvalidType := by
  refine ⟨fun v => decode_illegalTag_iff.trans lookupTag_eq_none_iff, length_reservedTags, ?_, ?_⟩
  · intro p
    cases p <;> decide
  · intro s v rest hp hr hd hc ht
    rw [step_command hp]
    exact command_invalidType hr hd hc ht

/-! `CMD[31:26]` reach the reserved field of the decoded word and nothing else (30_encoding.md R47). -/

/-- A field that lies in the low 26 bits is a field of those bits. -/
theorem extractLsb'_eq_of_setWidth_eq {v w : BitVec 32} (h : v.setWidth 26 = w.setWidth 26)
    {start len : Nat} (hle : start + len ≤ 26) :
    v.extractLsb' start len = w.extractLsb' start len := by
  apply BitVec.eq_of_getLsbD_eq
  intro k hk
  have hbit := congrArg (·.getLsbD (start + k)) h
  have : start + k < 26 := by omega
  simpa [hk, this] using hbit

/-- Words that differ only in bits 31:26 have the same tag. -/
theorem dtypeOf_eq_of_setWidth_eq {v w : BitVec 32} (h : v.setWidth 26 = w.setWidth 26) :
    dtypeOf v = dtypeOf w :=
  extractLsb'_eq_of_setWidth_eq h (by decide)

/-- Words that differ only in bits 31:26 have the same fields but for the reserved one. -/
theorem fieldsOf_eq_of_setWidth_eq {v w : BitVec 32} (h : v.setWidth 26 = w.setWidth 26) :
    fieldsOf w = { fieldsOf v with reserved := (fieldsOf w).reserved } := by
  have hrp : w.getLsbD 24 = v.getLsbD 24 := by simpa using congrArg (·.getLsbD 24) h.symm
  have hdp : w.getLsbD 25 = v.getLsbD 25 := by simpa using congrArg (·.getLsbD 25) h.symm
  have hbitpos := extractLsb'_eq_of_setWidth_eq h (start := 8) (len := 8) (by decide)
  have hcount := extractLsb'_eq_of_setWidth_eq h (start := 16) (len := 8) (by decide)
  simp only [fieldsOf, hrp, hdp, hbitpos, hcount]

/-- No instruction's meaning consults the reserved field: the row of its tag makes one that does
the same with any other value there. -/
theorem exec_ignores_reserved (i : Instr) (x : BitVec 6) (s : State) :
    ∃ r, lookupTag i.tag = some r ∧ exec (r.make { i.fields with reserved := x }) s = exec i s := by
  cases i <;> exact ⟨_, rfl, rfl⟩

/-- The same of a row found in the table and any fields. -/
theorem exec_row_ignores_reserved {t : BitVec 8} {r : TagRow} (h : lookupTag t = some r)
    (f : CmdFields) (x : BitVec 6) (s : State) :
    exec (r.make { f with reserved := x }) s = exec (r.make f) s := by
  obtain ⟨hd, hmake⟩ := lookupTag_row h
  obtain ⟨htag, hfields⟩ := hmake f
  obtain ⟨q, hq, hexec⟩ := exec_ignores_reserved (r.make f) x s
  rw [htag, hd, h] at hq
  cases hq
  rwa [hfields] at hexec

/-- Words that differ only in bits 31:26 perform the same command. -/
theorem command_eq_of_setWidth_eq {v w : BitVec 32} (h : v.setWidth 26 = w.setWidth 26)
    (s : State) : command w s = command v s := by
  have htag := dtypeOf_eq_of_setWidth_eq h
  have hfields := fieldsOf_eq_of_setWidth_eq h
  cases hrow : lookupTag (dtypeOf v) with
  | none =>
    rw [command_error (decode_of_no_row hrow), command_error (decode_of_no_row (htag ▸ hrow)),
      hfields]
    rfl
  | some r =>
    rw [command_ok (decode_of_row hrow), command_ok (decode_of_row (htag ▸ hrow)), hfields]
    exact exec_row_ignores_reserved hrow _ _ s

/-! The stored word: no command reads or writes `CMD`. -/

/-- An instruction is the same command of checks and member whatever `CMD` holds. -/
theorem exec_is_runCommand_for_every_cmd (i : Instr) (s : State) (w : BitVec 32) :
    ∃ (n need : Nat) (valid : Bool) (m : Except ErrorKind (BitVec n)),
      exec i s = runCommand need valid i.fields m s ∧
      exec i { s with cmd := w } = runCommand need valid i.fields m { s with cmd := w } := by
  cases i <;> exact ⟨_, _, _, _, rfl, rfl⟩

theorem exec_setCmd {i : Instr} {s t : State} (w : BitVec 32) (h : exec i s = .next t) :
    exec i { s with cmd := w } = .next { t with cmd := w } := by
  obtain ⟨n, need, valid, m, hs, hw⟩ := exec_is_runCommand_for_every_cmd i s w
  rw [hs] at h
  rw [hw]
  exact runCommand_commutes (fun u => { u with cmd := w }) (fun _ _ => rfl) (fun _ _ => rfl) h

theorem command_setCmd {v : BitVec 32} {s t : State} (w : BitVec 32) (h : command v s = .next t) :
    command v { s with cmd := w } = .next { t with cmd := w } := by
  cases hd : decode v with
  | ok i =>
    rw [command_ok hd] at h ⊢
    exact exec_setCmd w h
  | error e =>
    rw [command_error hd] at h ⊢
    exact runCommand_commutes (fun u => { u with cmd := w }) (fun _ _ => rfl) (fun _ _ => rfl) h

/-- A command leaves `CMD` as it stands (60_exceptions.md R164, 40_dispatch.md R68). -/
theorem command_keeps_cmd {v : BitVec 32} {s t : State} (h : command v s = .next t) :
    t.cmd = s.cmd := by
  obtain ⟨e, rfl⟩ | ⟨n, b, rfl⟩ := command_cases h
  · exact raise_cmd e s
  · exact pack_cmd b s

/-- Settles O19: the two words perform the same command, and that command neither reads nor writes
the `CMD` register they are stored in. -/
theorem reservedBitsAreStoredAndIgnored : Obligations.ReservedBitsAreStoredAndIgnored := by
  intro s t v w rest h hstep
  rw [step_command rfl] at hstep
  refine ⟨command_keeps_cmd hstep, ?_, congrArg lookupTag (dtypeOf_eq_of_setWidth_eq h)⟩
  rw [step_command rfl, command_eq_of_setWidth_eq h]
  exact command_setCmd w hstep

end Sys2Proof.Machine
end

section
/-! PROOFS. The family 40_dispatch.md: the dispatcher's checks, in their order. -/

namespace Sys2Proof.Machine

/-! The two checks that come before the tag: presence and the empty sequence (40_dispatch.md R61, R62). -/

/-- Every command word runs the dispatcher's checks on its own fields, whether or not its tag decodes
to an instruction. -/
theorem command_is_runCommand (v : BitVec 32) (s : State) :
    ∃ (n need : Nat) (valid : Bool) (m : Except ErrorKind (BitVec n)),
      command v s = runCommand need valid (fieldsOf v) m s := by
  cases hd : decode v with
  | error e => exact ⟨_, _, _, _, command_error hd s⟩
  | ok i =>
    obtain ⟨n, need, valid, m, hexec⟩ := exec_is_runCommand i s
    obtain ⟨-, hfields⟩ := decode_ok hd
    exact ⟨n, need, valid, m, by rw [command_ok hd, hexec, hfields]⟩

/-- An error that the checks find whatever the tag needs, and whether or not it is valid, is the error
of the command. -/
theorem command_raises_of_firstError {v : BitVec 32} {e : ErrorKind} (s : State)
    (h : ∀ need valid, firstError need valid (fieldsOf v) = some e) :
    command v s = .next (raise e s) := by
  obtain ⟨n, need, valid, m, hrun⟩ := command_is_runCommand v s
  rw [hrun]
  exact runCommand_error m s (h need valid)

/-- Settles O5: the presence check comes first, so no other field, the tag included, decides. -/
theorem missingPresenceBitRaisesNullPointer :
    Obligations.MissingPresenceBitRaisesNullPointer := by
  intro s v rest hp habsent
  rw [step_command hp]
  exact command_raises_of_firstError _ fun _ _ => firstError_absent habsent

/-- Settles O6: the check for an empty sequence comes before the one that asks for a valid tag. -/
theorem emptySequenceRaisesInsufficientRegisters :
    Obligations.EmptySequenceRaisesInsufficientRegisters := by
  intro s v rest hp hr hd hc
  have hcount : (fieldsOf v).count = 0 := congrArg BitVec.toNat hc
  rw [step_command hp]
  exact command_raises_of_firstError _ fun _ _ => firstError_empty hr hd hcount

/-! A valid tag and the words it needs (40_dispatch.md R63). -/

/-- The command of a valid tag: the dispatcher's checks with the tag's need, then a decoder whose only
error is InvalidBitPosition. -/
theorem command_of_validTag {v : BitVec 32} {i : Instr} {s : State} (hdec : decode v = .ok i)
    (hvalid : ¬ s.ExcludedTag (dtypeOf v)) :
    ∃ (n : Nat) (m : Except ErrorKind (BitVec n)),
      command v s = runCommand (needOf (dtypeOf v)) true (fieldsOf v) m s ∧
      ∀ e, m = .error e → e = .invalidBitPosition := by
  obtain ⟨htag, hfields⟩ := decode_ok hdec
  obtain ⟨n, m, hexec, -, herr, -⟩ := exec_spec i s
  rw [htag, hfields, decide_eq_true hvalid] at hexec
  refine ⟨n, m, (command_ok hdec s).trans hexec, fun e he => ?_⟩
  obtain ⟨-, -, hkind⟩ := herr e he
  exact hkind

/-- A decoder that raises no InsufficientRegisters leaves no such status. -/
theorem finish_status_ne_insufficientRegisters {n : Nat} {m : Except ErrorKind (BitVec n)}
    (herr : ∀ e, m = .error e → e = .invalidBitPosition) (s : State) :
    (finish m s).status ≠ statusWord .insufficientRegisters := by
  cases m with
  | error e =>
    cases herr e rfl
    simp [finish]
  | ok b => simp [finish]

/-- Every tag needs at least one word (30_encoding.md R50). -/
theorem one_le_needOf (tag : BitVec 8) : 1 ≤ needOf tag := by
  unfold needOf
  split_ifs <;> decide

/-- The nonempty sequences that are too short: one word for a 32-bit tag, one to three for a 64-bit
tag, and none for a tag of one word (30_encoding.md R50). -/
theorem nonempty_and_lt_needOf_iff (tag : BitVec 8) (c : Nat) :
    (1 ≤ c ∧ c < needOf tag) ↔
      ((widthClass tag = 3 ∧ c = 1) ∨ (widthClass tag = 4 ∧ 1 ≤ c ∧ c ≤ 3)) := by
  unfold needOf
  split_ifs with h3 h4 <;> omega

/-- Settles O7: on a valid tag the check of `COUNT` against the need is the one that decides. When it
passes, only the decoder can still raise an error, and that is InvalidBitPosition. -/
theorem shortSequenceRaisesInsufficientRegisters :
    Obligations.ShortSequenceRaisesInsufficientRegisters := by
  refine ⟨fun s v rest i hp hdec hvalid hr hd => ?_, nonempty_and_lt_needOf_iff⟩
  obtain ⟨n, m, hrun, herr⟩ :=
    command_of_validTag (s := { s with pending := rest, cmd := v }) hdec hvalid
  rw [step_command hp, hrun]
  constructor
  · intro hcount hshort
    exact runCommand_error _ _ (firstError_short hr hd hcount hshort)
  · intro henough
    have hcount := (one_le_needOf _).trans henough
    exact ⟨_, runCommand_finish _ _ (firstError_none hr hd hcount henough),
      finish_status_ne_insufficientRegisters herr _⟩

end Sys2Proof.Machine
end

section
/-! PROOFS. The family 41_bool_int8_int16.md: the one-word commands. -/

namespace Sys2Proof.Machine

/-! The boolean command (41_bool_int8_int16.md R80). -/

theorem exec_cvtBOOL (f : CmdFields) (s : State) :
    exec (.cvtBOOL f) s = runCommand 1 true f (boolMember f.bitpos s.x0) s := rfl

/-- One bit of a word, zero-extended, is the digit of the word's value at that place. -/
theorem setWidth_ofBool_getLsbD (w : Word) (b : Nat) :
    (BitVec.ofBool (w.getLsbD b)).setWidth 64 = BitVec.ofNat 64 (w.toNat / 2 ^ b % 2) := by
  have hdigit : (w.getLsbD b).toNat = w.toNat / 2 ^ b % 2 := by
    rw [getLsbD_eq_decide, toNat_decide_odd]
  apply BitVec.eq_of_toNat_eq
  rw [BitVec.toNat_setWidth, BitVec.toNat_ofBool, hdigit, BitVec.toNat_ofNat]

/-- Settles O31: the dispatcher's checks come first, and only when they pass does the boolean decoder
say whether `BITPOS` names a bit of the word. -/
theorem booleanCommand : Obligations.BooleanCommand := by
  intro f s
  rw [exec_cvtBOOL]
  refine ⟨rfl, fun habsent => ?absent, fun hr hd hc => ?empty, fun hr hd hc hb => ?noSuchBit,
    fun hr hd hc hb => ?accepted⟩
  case absent => exact runCommand_error _ _ (firstError_absent habsent)
  case empty => exact runCommand_error _ _ (firstError_empty hr hd hc)
  case noSuchBit =>
    rw [runCommand_finish _ _ (firstError_none hr hd hc hc), boolMember_refuses hb]
    rfl
  case accepted =>
    rw [runCommand_finish _ _ (firstError_none hr hd hc hc), boolMember_ok hb,
      ← setWidth_ofBool_getLsbD]
    rfl

/-! The integer commands: what an arm must be, and the two readings of its raw value. -/

/-- An arm that packs the scaled reading of its operands is the command of an integer type whose
decoded value is that reading; every integer tag is a valid one (40_dispatch.md R60). -/
theorem commandMeans_of_intMember {tag : BitVec 8} {need n : Nat} {mk : CmdFields → Instr}
    {reading v : State → Int} (ht : ∀ f, (mk f).tag = tag)
    (he : ∀ f s, exec (mk f) s = runCommand need true f (.ok (intMember n (reading s) s)) s)
    (hn : 1 ≤ need) (hv : ∀ s, reading s = v s) :
    CommandMeans tag need (fun _ => True) mk (fun s => scaledResult n (v s) s) := by
  refine commandMeans_of ht he hn (fun _ _ => rfl) fun s => ?_
  rw [hv]
  rfl

theorem uint_of_toNat {n x : Nat} {b : BitVec n} (h : b.toNat = x) : uint b = x :=
  congrArg Nat.cast h

/-- The two's-complement reading of a vector whose value is `x`: above the largest positive value,
`2 ^ n` is taken off (00_scope.md R5). -/
theorem sint_of_toNat {n x : Nat} {b : BitVec n} (h : b.toNat = x) :
    sint b = if 2 ^ (n - 1) - 1 < x then (x : Int) - 2 ^ n else x := by
  have hpos : 0 < 2 ^ (n - 1) := Nat.two_pow_pos _
  have hmsb : b.msb = true ↔ 2 ^ (n - 1) - 1 < x := by
    rw [BitVec.msb_eq_decide, decide_eq_true_iff, h]
    omega
  simp only [sint, hmsb, h]

/-- Settles O32: the decoded value is the low byte, in the unsigned and in the two's-complement
reading. -/
theorem eightBitCommands : Obligations.EightBitCommands :=
  ⟨commandMeans_of_intMember (fun _ => rfl) (fun _ _ => rfl) le_rfl
      fun s => uint_of_toNat (lo8_toNat s.x0),
    commandMeans_of_intMember (fun _ => rfl) (fun _ _ => rfl) le_rfl
      fun s => sint_of_toNat (lo8_toNat s.x0)⟩

/-- Settles O33: the byte mux delivers the word or its swapped bytes, and only then is the sign
read. -/
theorem sixteenBitCommands : Obligations.SixteenBitCommands :=
  ⟨commandMeans_of_intMember (fun _ => rfl) (fun _ _ => rfl) le_rfl
      fun s => uint_of_toNat (ord16_toNat .ab s.x0),
    commandMeans_of_intMember (fun _ => rfl) (fun _ _ => rfl) le_rfl
      fun s => uint_of_toNat (ord16_toNat .ba s.x0),
    commandMeans_of_intMember (fun _ => rfl) (fun _ _ => rfl) le_rfl
      fun s => sint_of_toNat (ord16_toNat .ab s.x0),
    commandMeans_of_intMember (fun _ => rfl) (fun _ _ => rfl) le_rfl
      fun s => sint_of_toNat (ord16_toNat .ba s.x0)⟩

end Sys2Proof.Machine
end

section
/-! PROOFS. The family 42_int32.md: the 32-bit integer commands. -/

namespace Sys2Proof.Machine

/-! The reading of a raw value that a byte mux has delivered: unsigned, and in two's complement. -/

/-- An arm that packs the unsigned reading of its reordered operands is the command whose decoded
value is the value of the raw bits (42_int32.md R91). -/
theorem commandMeans_of_uint {tag : BitVec 8} {need n : Nat} {mk : CmdFields → Instr}
    {reordered raw : State → BitVec n} (ht : ∀ f, (mk f).tag = tag)
    (he : ∀ f s, exec (mk f) s =
      runCommand need true f (.ok (intMember n (uint (reordered s)) s)) s)
    (hn : 1 ≤ need) (hraw : ∀ s, reordered s = raw s) :
    CommandMeans tag need (fun _ => True) mk (fun s => scaledResult n (raw s).toNat s) :=
  commandMeans_of_intMember ht he hn fun s => uint_of_toNat (congrArg BitVec.toNat (hraw s))

/-- An arm that packs the signed reading of its reordered operands is the command whose decoded value
is the raw bits in two's complement: the sign is read after the reordering (42_int32.md R95). -/
theorem commandMeans_of_sint {tag : BitVec 8} {need n : Nat} {mk : CmdFields → Instr}
    {reordered raw : State → BitVec n} (ht : ∀ f, (mk f).tag = tag)
    (he : ∀ f s, exec (mk f) s =
      runCommand need true f (.ok (intMember n (sint (reordered s)) s)) s)
    (hn : 1 ≤ need) (hraw : ∀ s, reordered s = raw s) :
    CommandMeans tag need (fun _ => True) mk (fun s => scaledResult n (raw s).toInt s) :=
  commandMeans_of_intMember ht he hn fun s =>
    (sint_eq_toInt _).trans (congrArg BitVec.toInt (hraw s))

/-- Settles O34: each pattern delivers the words its rule gives (`reorder32_words`), and they are read
as an unsigned integer. -/
theorem unsigned32BitCommands : Obligations.Unsigned32BitCommands :=
  ⟨commandMeans_of_uint (fun _ => rfl) (fun _ _ => rfl) one_le_two
      fun s => reorder32_words .abcd s.x0 s.x1,
    commandMeans_of_uint (fun _ => rfl) (fun _ _ => rfl) one_le_two
      fun s => reorder32_words .dcba s.x0 s.x1,
    commandMeans_of_uint (fun _ => rfl) (fun _ _ => rfl) one_le_two
      fun s => reorder32_words .badc s.x0 s.x1,
    commandMeans_of_uint (fun _ => rfl) (fun _ _ => rfl) one_le_two
      fun s => reorder32_words .cdab s.x0 s.x1⟩

/-- Settles O35: each pattern delivers the words its rule gives (`reorder32_words`), and only then is
the sign read. -/
theorem signed32BitCommands : Obligations.Signed32BitCommands :=
  ⟨commandMeans_of_sint (fun _ => rfl) (fun _ _ => rfl) one_le_two
      fun s => reorder32_words .abcd s.x0 s.x1,
    commandMeans_of_sint (fun _ => rfl) (fun _ _ => rfl) one_le_two
      fun s => reorder32_words .dcba s.x0 s.x1,
    commandMeans_of_sint (fun _ => rfl) (fun _ _ => rfl) one_le_two
      fun s => reorder32_words .badc s.x0 s.x1,
    commandMeans_of_sint (fun _ => rfl) (fun _ _ => rfl) one_le_two
      fun s => reorder32_words .cdab s.x0 s.x1⟩

end Sys2Proof.Machine
end

section
/-! PROOFS. The family 43_int64.md: the 64-bit integer commands. -/

namespace Sys2Proof.Machine

/-! The sixteen commands as two families over the pattern: each has one meaning, whatever the pattern
(43_int64.md R119). -/

/-- The command of CVT.U64 with a given pattern (43_int64.md R102 to R109). -/
def unsigned64 : Pat64 → CmdFields → Instr
  | .abcdefgh => .cvtU64ABCDEFGH
  | .hgfedcba => .cvtU64HGFEDCBA
  | .badcfehg => .cvtU64BADCFEHG
  | .cdabghef => .cvtU64CDABGHEF
  | .dcbahgfe => .cvtU64DCBAHGFE
  | .ghefcdab => .cvtU64GHEFCDAB
  | .fehgbadc => .cvtU64FEHGBADC
  | .efghabcd => .cvtU64EFGHABCD

/-- The command of CVT.S64 with a given pattern (43_int64.md R110 to R117). -/
def signed64 : Pat64 → CmdFields → Instr
  | .abcdefgh => .cvtS64ABCDEFGH
  | .hgfedcba => .cvtS64HGFEDCBA
  | .badcfehg => .cvtS64BADCFEHG
  | .cdabghef => .cvtS64CDABGHEF
  | .dcbahgfe => .cvtS64DCBAHGFE
  | .ghefcdab => .cvtS64GHEFCDAB
  | .fehgbadc => .cvtS64FEHGBADC
  | .efghabcd => .cvtS64EFGHABCD

theorem tag_unsigned64 (p : Pat64) (f : CmdFields) :
    (unsigned64 p f).tag = BitVec.ofNat 8 (0x80 + pat64Index p) := by
  cases p <;> rfl

theorem tag_signed64 (p : Pat64) (f : CmdFields) :
    (signed64 p f).tag = BitVec.ofNat 8 (0x88 + pat64Index p) := by
  cases p <;> rfl

theorem exec_unsigned64 (p : Pat64) (f : CmdFields) (s : State) :
    exec (unsigned64 p f) s = runCommand 4 true f
      (.ok (intMember 64 (uint (reorder64 p s.x0 s.x1 s.x2 s.x3)) s)) s := by
  cases p <;> rfl

theorem exec_signed64 (p : Pat64) (f : CmdFields) (s : State) :
    exec (signed64 p f) s = runCommand 4 true f
      (.ok (intMember 64 (sint (reorder64 p s.x0 s.x1 s.x2 s.x3)) s)) s := by
  cases p <;> rfl

/-- CVT.U64 of any pattern, `raw` being the words its rule gives: they are read as an unsigned
integer. -/
theorem unsigned64_means (p : Pat64) {raw : State → BitVec 64}
    (hraw : ∀ s, reorder64 p s.x0 s.x1 s.x2 s.x3 = raw s) :
    CommandMeans (BitVec.ofNat 8 (0x80 + pat64Index p)) 4 (fun _ => True) (unsigned64 p)
      (fun s => scaledResult 64 (raw s).toNat s) :=
  commandMeans_of_uint (tag_unsigned64 p) (exec_unsigned64 p) (by decide) hraw

/-- CVT.S64 of any pattern, `raw` being the words its rule gives: the sign is the top bit of the
reordered bytes. -/
theorem signed64_means (p : Pat64) {raw : State → BitVec 64}
    (hraw : ∀ s, reorder64 p s.x0 s.x1 s.x2 s.x3 = raw s) :
    CommandMeans (BitVec.ofNat 8 (0x88 + pat64Index p)) 4 (fun _ => True) (signed64 p)
      (fun s => scaledResult 64 (raw s).toInt s) :=
  commandMeans_of_sint (tag_signed64 p) (exec_signed64 p) (by decide) hraw

/-- Settles O36: the meaning of CVT.U64 at each pattern, with the words that pattern delivers
(`reorder64_words`). -/
theorem unsigned64BitCommands : Obligations.Unsigned64BitCommands := by
  have means p := unsigned64_means p fun s => reorder64_words p s.x0 s.x1 s.x2 s.x3
  exact ⟨means .abcdefgh, means .hgfedcba, means .badcfehg, means .cdabghef,
    means .dcbahgfe, means .ghefcdab, means .fehgbadc, means .efghabcd⟩

/-- Settles O37: the meaning of CVT.S64 at each pattern, with the words that pattern delivers
(`reorder64_words`). -/
theorem signed64BitCommands : Obligations.Signed64BitCommands := by
  have means p := signed64_means p fun s => reorder64_words p s.x0 s.x1 s.x2 s.x3
  exact ⟨means .abcdefgh, means .hgfedcba, means .badcfehg, means .cdabghef,
    means .dcbahgfe, means .ghefcdab, means .fehgbadc, means .efghabcd⟩

end Sys2Proof.Machine
end

section
/-! PROOFS. The family 44_float.md: the float32 and float64 commands. -/

namespace Sys2Proof.Machine

/-! The float32 commands (44_float.md R120). -/

/-- An arm that packs the scaled member of its reordered operands is the command of a float32 type
whose raw value is the words `raw`; every float32 tag is a valid one (40_dispatch.md R60). -/
theorem commandMeans_of_float32Member {tag : BitVec 8} {mk : CmdFields → Instr}
    {reordered raw : State → BitVec 32} (ht : ∀ f, (mk f).tag = tag)
    (he : ∀ f s, exec (mk f) s = runCommand 2 true f (.ok (float32Member (reordered s) s)) s)
    (hraw : ∀ s, reordered s = raw s) :
    CommandMeans tag 2 (fun _ => True) mk
      (fun s => (scaleF32 (raw s) s.scale (Config.nanResult s.draws)).setWidth 64) := by
  refine commandMeans_of ht he one_le_two (fun _ _ => rfl) fun s => ?_
  rw [hraw]
  rfl

/-- Settles O38: each pattern delivers the words its rule gives (`reorder32_words`), and they are
scaled as binary32. -/
theorem float32Commands : Obligations.Float32Commands :=
  ⟨commandMeans_of_float32Member (fun _ => rfl) (fun _ _ => rfl)
      fun s => reorder32_words .abcd s.x0 s.x1,
    commandMeans_of_float32Member (fun _ => rfl) (fun _ _ => rfl)
      fun s => reorder32_words .dcba s.x0 s.x1,
    commandMeans_of_float32Member (fun _ => rfl) (fun _ _ => rfl)
      fun s => reorder32_words .badc s.x0 s.x1,
    commandMeans_of_float32Member (fun _ => rfl) (fun _ _ => rfl)
      fun s => reorder32_words .cdab s.x0 s.x1⟩

/-! The float64 commands as one family over the pattern (44_float.md R125): the pattern decides the
words of the raw value, and also whether the tag is a valid one (R134). -/

/-- The command of CVT.F64 with a given pattern (44_float.md R126 to R133). -/
def float64 : Pat64 → CmdFields → Instr
  | .abcdefgh => .cvtF64ABCDEFGH
  | .hgfedcba => .cvtF64HGFEDCBA
  | .badcfehg => .cvtF64BADCFEHG
  | .cdabghef => .cvtF64CDABGHEF
  | .dcbahgfe => .cvtF64DCBAHGFE
  | .ghefcdab => .cvtF64GHEFCDAB
  | .fehgbadc => .cvtF64FEHGBADC
  | .efghabcd => .cvtF64EFGHABCD

theorem tag_float64 (p : Pat64) (f : CmdFields) :
    (float64 p f).tag = BitVec.ofNat 8 (0x90 + pat64Index p) := by
  cases p <;> rfl

theorem exec_float64 (p : Pat64) (f : CmdFields) (s : State) :
    exec (float64 p f) s = runCommand 4 (!s.excludes p) f
      (.ok (float64Member (reorder64 p s.x0 s.x1 s.x2 s.x3) s)) s := by
  cases p <;> rfl

/-- The tag of a float64 pattern is a valid one unless F64_EXCLUDED_PAT names the pattern (44_float.md
R134). -/
theorem not_excludes_iff (s : State) (p : Pat64) :
    (!s.excludes p) = true ↔ s.f64Excluded ≠ some p := by
  simp [State.excludes]

/-- CVT.F64 of any pattern that is not excluded, `raw` being the words its rule gives: they are
scaled as binary64, and the member fills `RESULT`. -/
theorem float64_means (p : Pat64) {raw : State → BitVec 64}
    (hraw : ∀ s, reorder64 p s.x0 s.x1 s.x2 s.x3 = raw s) :
    CommandMeans (BitVec.ofNat 8 (0x90 + pat64Index p)) 4 (fun s => s.f64Excluded ≠ some p)
      (float64 p) (fun s => scaleF64 (raw s) s.scale (Config.nanResult s.draws)) := by
  refine commandMeans_of (tag_float64 p) (exec_float64 p) (by decide)
    (fun s => (not_excludes_iff s p).2) fun s => ?_
  rw [BitVec.setWidth_eq, hraw, float64Member]

/-- Settles O39: the meaning of CVT.F64 at each pattern, with the words that pattern delivers
(`reorder64_words`). -/
theorem float64Commands : Obligations.Float64Commands := by
  have means p := float64_means p fun s => reorder64_words p s.x0 s.x1 s.x2 s.x3
  exact ⟨means .abcdefgh, means .hgfedcba, means .badcfehg, means .cdabghef,
    means .dcbahgfe, means .ghefcdab, means .fehgbadc, means .efghabcd⟩

end Sys2Proof.Machine
end

section
/-! PROOFS. The family 45_scaling_numerics.md: truncation, the two conversions into binary64, and the
NaN results of the float commands. -/

namespace Sys2Proof.Machine

/-! Truncation (45_scaling_numerics.md R143): `trunc` keeps the sign and takes the floor of the
magnitude. -/

/-- The magnitude that `trunc` computes is the floor of the rational one. -/
theorem floor_mul_two_zpow (m : Nat) (e : Int) :
    ⌊(m : ℚ) * 2 ^ e⌋ =
      ((if 0 ≤ e then m * 2 ^ e.toNat else m / 2 ^ (-e).toNat : Nat) : Int) := by
  split
  case isTrue h =>
    obtain ⟨k, rfl⟩ := Int.eq_ofNat_of_zero_le h
    rw [zpow_natCast, Int.toNat_natCast, ← Int.floor_natCast (R := ℚ)]
    push_cast
    rfl
  case isFalse h =>
    have hdiv : (m : ℚ) * 2 ^ e = (m : ℚ) / ((2 ^ (-e).toNat : Nat) : ℚ) := by
      rw [Nat.cast_pow, ← zpow_natCast, Int.toNat_of_nonneg (by omega), zpow_neg, div_inv_eq_mul]
      rfl
    rw [hdiv, Rat.floor_natCast_div_natCast]
    push_cast
    rfl

theorem truncToInt_of_nonneg {q : ℚ} (h : 0 ≤ q) : truncToInt q = ⌊q⌋ := if_pos h

/-- Rounding toward zero treats both signs alike. -/
theorem truncToInt_neg_of_nonneg {q : ℚ} (h : 0 ≤ q) : truncToInt (-q) = -⌊q⌋ := by
  rcases h.eq_or_lt with rfl | hpos
  · simp [truncToInt]
  · rw [truncToInt, if_neg (by linarith), Int.ceil_neg]

/-- Settles O51: the magnitude is floored and the sign is put back. -/
theorem truncationDiscardsTheFraction : Obligations.TruncationDiscardsTheFraction := by
  intro neg m e
  have hnonneg : (0 : ℚ) ≤ m * 2 ^ e := by positivity
  rw [Datum.value_fin, trunc, ← floor_mul_two_zpow]
  cases neg with
  | false => simpa using (truncToInt_of_nonneg hnonneg).symm
  | true => simpa using (truncToInt_neg_of_nonneg hnonneg).symm

/-! What both conversions into binary64 need: that they stay below its overflow bound, and what a
rounded value is a multiple of. -/

/-- The overflow bound lies between the powers of two around the largest finite magnitude. -/
theorem Format.overflow_bounds (F : Format) :
    (2 : ℚ) ^ F.bias ≤ F.overflow ∧ F.overflow ≤ 2 ^ (F.bias + 1) := by
  have hhalf : (2 : ℚ) ^ (-(F.fracWidth : Int) - 1) ≤ 1 :=
    zpow_le_one_of_nonpos₀ (by norm_num) (by omega)
  have hpos : (0 : ℚ) < 2 ^ (-(F.fracWidth : Int) - 1) := by positivity
  have hbias : (0 : ℚ) < 2 ^ F.bias := by positivity
  rw [Format.overflow, zpow_natCast, pow_succ]
  constructor <;> nlinarith

/-- Every magnitude up to 2^128, and so every binary32 one, is below the overflow bound of binary64. -/
theorem lt_overflow64_of_le {x : ℚ} (h : x ≤ 2 ^ 128) : x < binary64.overflow :=
  calc x ≤ 2 ^ 128 := h
    _ < 2 ^ binary64.bias := pow_lt_pow_right₀ (by norm_num) (by decide)
    _ ≤ binary64.overflow := binary64.overflow_bounds.1

/-- A finite rounded value is a multiple of the last place kept. -/
theorem Format.round_value_multiple {F : Format} (hF : F.Sound) (neg : Bool) {m : Nat} (hm : m ≠ 0)
    {e : Int} (h : (m : ℚ) * 2 ^ e < F.overflow) :
    ∃ n : Nat, (F.round neg m e).value =
      (if neg then -1 else 1) * ((n : ℚ) * 2 ^ F.lastPlace m e) := by
  have hlt := (F.roundBits_lt_iff hF m e).2 h
  obtain ⟨j, l, hround, hmag⟩ := F.round_finite hF neg h
  obtain ⟨k, n, hlast, -, hplaces, -⟩ := F.roundBits_places hm e hlt
  refine ⟨n, ?_⟩
  rw [hround, Datum.value_fin, hmag, F.magnitude_of_places hF hlt hplaces, hlast]

/-! Integers to binary64 (45_scaling_numerics.md R141). -/

/-- The sign that `i2f64` takes and the magnitude that it rounds are those of the integer. -/
theorem sign_mul_natAbs (v : Int) :
    (if decide (v < 0) then -1 else 1 : ℚ) * v.natAbs = v := by
  rw [Nat.cast_natAbs, Int.cast_abs]
  by_cases h : v < 0
  · have hq : (v : ℚ) < 0 := by exact_mod_cast h
    simp [h, abs_of_neg hq]
  · have hq : (0 : ℚ) ≤ v := by exact_mod_cast not_lt.1 h
    simp [h, abs_of_nonneg hq]

/-- No integer of magnitude up to 2^64 comes near the overflow bound of binary64. -/
theorem natAbs_lt_overflow64 {v : Int} (hv : v.natAbs ≤ 2 ^ 64) :
    (v.natAbs : ℚ) * 2 ^ (0 : Int) < binary64.overflow := by
  refine lt_overflow64_of_le ?_
  have hq : (v.natAbs : ℚ) ≤ 2 ^ 64 := by exact_mod_cast hv
  rw [zpow_zero, mul_one]
  exact hq.trans (pow_le_pow_right₀ (by norm_num) (by decide))

/-- An integer of at most 53 significant bits is a binary64 datum and converts to itself. -/
theorem i2f64_value_exact {v m : Int} {k : Nat} (hv : v.natAbs ≤ 2 ^ 64) (hm : m.natAbs < 2 ^ 53)
    (h : v = m * 2 ^ k) : (i2f64 v).value = v := by
  have hmag : (v.natAbs : ℚ) * 2 ^ (0 : Int) = m.natAbs * 2 ^ (k : Int) := by
    rw [h, Int.natAbs_mul, Int.natAbs_pow]
    push_cast
    simp
  have hmin : binary64.minExp ≤ k := le_trans (by decide) (Int.natCast_nonneg k)
  have hover := natAbs_lt_overflow64 hv
  rw [i2f64, Format.round_exact sound64 _ hm hmin (hmag ▸ hover) hmag, ← hmag, zpow_zero, mul_one,
    sign_mul_natAbs]

/-- The last place kept of an integer whose leading bit is bit `k` (45_scaling_numerics.md R141). -/
theorem lastPlace64_of_leadingBit {m k : Nat} (hlo : 2 ^ k ≤ m) (hhi : m < 2 ^ (k + 1)) :
    binary64.lastPlace m 0 = (k : Int) - 52 := by
  have hlog : Nat.log2 m = k :=
    (Nat.log2_eq_iff (Nat.two_pow_pos k |>.trans_le hlo).ne').2 ⟨hlo, hhi⟩
  have hmin : binary64.minExp = -1074 := rfl
  have hfrac : (binary64.fracWidth : Int) = 52 := rfl
  rw [Format.lastPlace, hlog, hmin, hfrac]
  omega

/-- The spacing of the conversion: a multiple of the place 52 bits below the leading one. -/
theorem i2f64_value_multiple {v : Int} {k : Nat} (hv : v.natAbs ≤ 2 ^ 64) (hlo : 2 ^ k ≤ v.natAbs)
    (hhi : v.natAbs < 2 ^ (k + 1)) : ∃ n : Int, (i2f64 v).value = n * 2 ^ ((k : Int) - 52) := by
  have hne : v.natAbs ≠ 0 := (Nat.two_pow_pos k |>.trans_le hlo).ne'
  obtain ⟨n, hn⟩ := Format.round_value_multiple sound64 (decide (v < 0)) hne
    (natAbs_lt_overflow64 hv)
  rw [lastPlace64_of_leadingBit hlo hhi] at hn
  refine ⟨(if decide (v < 0) then -1 else 1) * n, ?_⟩
  rw [i2f64, hn]
  push_cast
  ring

/-- A power of two up to 2^64 converts to itself. -/
theorem i2f64_two_pow_value {k : Nat} (hk : k ≤ 64) : (i2f64 (2 ^ k)).value = 2 ^ k := by
  have hv : ((2 : Int) ^ k).natAbs ≤ 2 ^ 64 := by
    rw [Int.natAbs_pow]
    exact Nat.pow_le_pow_right (by decide) hk
  rw [i2f64_value_exact hv (m := 1) (by decide) (one_mul _).symm]
  push_cast
  rfl

/-- Settles O47: `i2f64` is a correct rounding that never overflows, exact on what the format holds;
2^64 - 1 and 2^63 - 1 round as the powers of two above them do. -/
theorem integerConversionIsNearestEven : Obligations.IntegerConversionIsNearestEven := by
  refine ⟨fun v hv => ⟨?finite, ?nearest, fun hsmall => ?small, fun m k hm h => ?significant,
    fun k hlo hhi => i2f64_value_multiple hv hlo hhi⟩, by decide, ?top64, ?top63⟩
  case finite => exact (Format.round_isFinite sound64 _ _ _).2 (natAbs_lt_overflow64 hv)
  case nearest => simpa [i2f64] using Format.round_roundsTo sound64 (decide (v < 0)) v.natAbs 0
  case small => exact i2f64_value_exact hv hsmall (k := 0) (by simp)
  case significant => exact i2f64_value_exact hv hm h
  case top64 =>
    rw [show i2f64 (2 ^ 64 - 1) = i2f64 (2 ^ 64) by decide]
    exact i2f64_two_pow_value le_rfl
  case top63 =>
    rw [show i2f64 (2 ^ 63 - 1) = i2f64 (2 ^ 63) by decide]
    exact i2f64_two_pow_value (by decide)

/-! Binary32 to binary64 (45_scaling_numerics.md R148). -/

/-- A finite binary32 datum is a finite binary64 one: its significand has 24 bits and its last place
is not below the finest one of binary64. -/
theorem f32to64_of_finite {a : BitVec 32} (h : (f32 a).isFinite = true) :
    (∃ b : BitVec 64, f32to64 (f32 a) = f64 b) ∧ (f32to64 (f32 a)).isFinite = true ∧
      (f32to64 (f32 a)).value = (f32 a).value ∧
      (f32to64 (f32 a)).negative = (f32 a).negative := by
  obtain ⟨neg, b, -, -, ⟨hb, m, e, hd, hmag, hbits⟩ | ⟨-, hd⟩ | ⟨-, hd⟩⟩ := f32_cases a
  case inr.inl | inr.inr => simp [hd, Datum.isFinite] at h
  rw [hd, f32to64]
  have hover : (m : ℚ) * 2 ^ e < binary64.overflow := by
    have h32 := (Format.roundBits_lt_iff sound32 m e).1 (hbits.symm ▸ hb)
    exact lt_overflow64_of_le (h32.le.trans binary32.overflow_bounds.2)
  refine ⟨round64_encoded, (Format.round_isFinite sound64 _ _ _).2 hover, ?_,
    Format.round_negative sound64 _ _ _⟩
  obtain ⟨k, n, hplaces, hn⟩ := binary32.places_of b
  have hx := hmag.trans (Format.magnitude_of_places sound32 hb hplaces)
  have hn53 : n < 2 ^ (binary64.fracWidth + 1) :=
    hn.trans (Nat.pow_lt_pow_right (by decide) (by decide))
  have hmin : binary64.minExp ≤ binary32.minExp + k :=
    (show binary64.minExp ≤ binary32.minExp by decide).trans (by omega)
  rw [Format.round_exact sound64 neg hn53 hmin (hx ▸ hover) hx, ← hx, Datum.value_fin]

/-- Settles O49: the finite case is exact, and the other two data are carried over by name. -/
theorem binary32WidensExactly : Obligations.Binary32WidensExactly :=
  fun _ => ⟨f32to64_of_finite, fun _ h => by rw [h, f32to64], fun h => by rw [h, f32to64]⟩

/-! NaN results (45_scaling_numerics.md R147): when the product is one, and which NaN is written. -/

/-- A product is a NaN when an operand is one, or when it is zero times infinity in either order. -/
theorem fmul64_eq_nan_iff (a b : Datum) :
    fmul64 a b = .nan ↔ a = .nan ∨ b = .nan ∨
      (a.isFinite = true ∧ a.value = 0 ∧ ∃ n, b = .inf n) ∨
      (b.isFinite = true ∧ b.value = 0 ∧ ∃ n, a = .inf n) := by
  cases a with
  | nan => simp [fmul64]
  | inf n => cases b <;> simp [fmul64, Datum.isFinite, Datum.value_zero]
  | fin neg m e =>
    cases b with
    | nan => simp [fmul64]
    | inf n => simp [fmul64, Datum.isFinite, Datum.value_zero]
    | fin k j l => simp [fmul64, Format.round_ne_nan sound64]

/-- Narrowing makes no NaN. -/
theorem f64to32_eq_nan_iff (d : Datum) : f64to32 d = .nan ↔ d = .nan := by
  cases d with
  | nan => simp [f64to32]
  | inf n => simp [f64to32]
  | fin neg m e => simp [f64to32, Format.round_ne_nan sound32]

/-- Widening keeps what decides whether a product is a NaN. -/
theorem f32to64_keeps_kind (a : BitVec 32) :
    (f32to64 (f32 a) = .nan ↔ f32 a = .nan) ∧
      (∀ n, f32to64 (f32 a) = .inf n ↔ f32 a = .inf n) ∧
      (f32to64 (f32 a)).isFinite = (f32 a).isFinite ∧
      (f32to64 (f32 a)).value = (f32 a).value := by
  cases h : f32 a with
  | nan => simp [f32to64]
  | inf n => simp [f32to64, Datum.isFinite, Datum.value]
  | fin neg m e =>
    obtain ⟨-, hfin, hval, -⟩ := f32to64_of_finite (a := a) (by rw [h]; rfl)
    rw [h] at hfin hval
    cases hw : f32to64 (.fin neg m e) with
    | nan | inf n => simp [hw, Datum.isFinite] at hfin
    | fin k j l => simpa [hw, Datum.isFinite] using hval

/-- Bits forced to one read back as ones, whatever the others are. -/
theorem or_and_self_right {w : Nat} (x c : BitVec w) : (x ||| c) &&& c = c := by
  ext i hi
  simp +contextual

/-- Forcing bits that are already ones changes nothing. -/
theorem or_eq_left_of_and_eq {w : Nat} {q c : BitVec w} (h : q &&& c = c) : q ||| c = q := by
  rw [← h]
  ext i hi
  simp +contextual

theorem scaleF32_of_nan {raw : BitVec 32} {scale : BitVec 64}
    (h : f64to32 (fmul64 (f32to64 (f32 raw)) (f64 scale)) = .nan) (free : BitVec 64) :
    scaleF32 raw scale free = free.setWidth 32 ||| 0x7FC00000#32 := by
  rw [scaleF32, h, bits32, Format.encode, BitVec.ofNat_toNat, BitVec.setWidth_eq, quietNaN32]

theorem scaleF64_of_nan {raw scale : BitVec 64} (h : fmul64 (f64 raw) (f64 scale) = .nan)
    (free : BitVec 64) : scaleF64 raw scale free = free ||| 0x7FF8000000000000#64 := by
  rw [scaleF64, h, bits64, Format.encode, BitVec.ofNat_toNat, BitVec.setWidth_eq, quietNaN64]

/-- Settles O60: the product decides whether the result is a NaN, and the free value with its forced
bits reaches every quiet NaN, from that NaN itself. -/
theorem nanResultIsSomeQuietNan : Obligations.NanResultIsSomeQuietNan := by
  refine ⟨fun raw scale => ⟨?iff32, fun hnan => ⟨fun free => ?quiet32, fun q hq => ?every32⟩⟩,
    fun raw scale => ⟨fmul64_eq_nan_iff _ _,
      fun hnan => ⟨fun free => ?quiet64, fun q hq => ?every64⟩⟩⟩
  case iff32 =>
    obtain ⟨hnan, hinf, hfin, hval⟩ := f32to64_keeps_kind raw
    rw [f64to32_eq_nan_iff, fmul64_eq_nan_iff, hnan, hfin, hval]
    simp only [hinf]
  case quiet32 => rw [scaleF32_of_nan hnan, or_and_self_right]
  case every32 =>
    refine ⟨q.setWidth 64, ?_⟩
    rw [scaleF32_of_nan hnan, BitVec.setWidth_setWidth_of_le _ (by decide), BitVec.setWidth_eq,
      or_eq_left_of_and_eq hq]
  case quiet64 => rw [scaleF64_of_nan hnan, or_and_self_right]
  case every64 => exact ⟨q, by rw [scaleF64_of_nan hnan, or_eq_left_of_and_eq hq]⟩

end Sys2Proof.Machine
end

section
/-! PROOFS. The family 60_exceptions.md: which error is reported, and what a failing command leaves. -/

namespace Sys2Proof.Machine

/-! The last check, `BITPOS`, is the decoder's own (40_dispatch.md R60 lines 5 and 6). -/

/-- A tag that is not reserved decodes (30_encoding.md R53). -/
theorem decode_ok_of_not_reservedTag {v : BitVec 32} (h : ¬ ReservedTag (dtypeOf v)) :
    ∃ i, decode v = .ok i := by
  obtain ⟨r, hr⟩ := Option.isSome_iff_exists.1 (lookupTag_isSome_of_not_reservedTag _ h)
  exact ⟨_, decode_of_row hr⟩

/-- When the dispatcher's four checks pass, the decoder alone decides: it raises InvalidBitPosition for
CVT.BOOL with `BITPOS > 15`, and in every other case its member is packed. -/
theorem command_of_checks_passed {v : BitVec 32} {i : Instr} {s : State} (hdec : decode v = .ok i)
    (hvalid : ¬ s.ExcludedTag (dtypeOf v)) (hr : v.getLsbD 24 = true) (hd : v.getLsbD 25 = true)
    (henough : needOf (dtypeOf v) ≤ (fieldsOf v).count) :
    (dtypeOf v = 0#8 ∧ 15 < (fieldsOf v).bitpos →
      command v s = .next (raise .invalidBitPosition s)) ∧
    (¬ (dtypeOf v = 0#8 ∧ 15 < (fieldsOf v).bitpos) →
      ∃ (n : Nat) (b : BitVec n), command v s = .next (pack b s)) := by
  obtain ⟨htag, hfields⟩ := decode_ok hdec
  obtain ⟨n, m, hexec, -, herr, hbool⟩ := exec_spec i s
  rw [htag, hfields] at hexec herr hbool
  have hpassed := firstError_none hr hd ((one_le_needOf _).trans henough) henough
  have hfinish : command v s = .next (finish m s) := by
    rw [command_ok hdec, hexec, decide_eq_true hvalid, runCommand_finish _ _ hpassed]
  constructor
  · rintro ⟨hzero, hbitpos⟩
    rw [hfinish, hbool hzero hbitpos]
    rfl
  · intro hbit
    cases m with
    | error e =>
      obtain ⟨hzero, hbitpos, -⟩ := herr e rfl
      exact absurd ⟨hzero, hbitpos⟩ hbit
    | ok b => exact ⟨n, b, hfinish⟩

/-- Settles O8: one case per condition of R60, each reached when those before it do not hold. The
first four are the statements about the single checks (O5, O6, O4, O7). -/
theorem firstHoldingCheckWins : Obligations.FirstHoldingCheckWins := by
  intro s v rest hp
  split_ifs with habsent hempty hinvalid hshort hbit
  · exact ⟨_, missingPresenceBitRaisesNullPointer s v rest hp habsent, rfl⟩
  all_goals
    obtain ⟨hr, hd⟩ : v.getLsbD 24 = true ∧ v.getLsbD 25 = true := by simpa using habsent
  · exact ⟨_, emptySequenceRaisesInsufficientRegisters s v rest hp hr hd hempty, rfl⟩
  · obtain ⟨-, -, -, hillegal⟩ := reservedTagsRaiseInvalidType
    exact ⟨_, hillegal s v rest hp hr hd hempty hinvalid, rfl⟩
  all_goals
    obtain ⟨hreserved, hvalid⟩ := not_or.1 hinvalid
    obtain ⟨i, hdec⟩ := decode_ok_of_not_reservedTag hreserved
  · have hcount : 1 ≤ (v.extractLsb' 16 8).toNat :=
      Nat.one_le_iff_ne_zero.2 fun h0 => hempty (BitVec.eq_of_toNat_eq h0)
    obtain ⟨hcheck, -⟩ := shortSequenceRaisesInsufficientRegisters
    obtain ⟨hraise, -⟩ := hcheck s v rest i hp hdec hvalid hr hd
    exact ⟨_, hraise hcount hshort, rfl⟩
  all_goals
    obtain ⟨hraise, hpack⟩ := command_of_checks_passed
      (s := { s with pending := rest, cmd := v }) hdec hvalid hr hd (not_lt.1 hshort)
    rw [step_command hp]
  · exact ⟨_, hraise hbit, rfl⟩
  · obtain ⟨n, b, hdone⟩ := hpack hbit
    exact ⟨_, hdone, rfl⟩

/-! What a failing command leaves (60_exceptions.md R164). -/

/-- The error kinds but Success have a number of at least 1 in `STATUS.ERR` (60_exceptions.md R160). -/
theorem one_le_errOf_statusWord {e : ErrorKind} (he : e ≠ .success) :
    1 ≤ (errOf (statusWord e)).toNat := by
  rw [errOf_statusWord]
  cases e with
  | success => exact absurd rfl he
  | _ => decide

/-- Settles O9: a command either packs a member, which leaves STATUS 0x80, or raises an error kind
that occurs, and a raise writes STATUS alone. -/
theorem failedCommandChangesOnlyStatus : Obligations.FailedCommandChangesOnlyStatus := by
  intro s t v rest hp hstep hfailed
  rw [step_command hp] at hstep
  obtain ⟨e, hknown, rfl⟩ | ⟨n, b, rfl⟩ := command_outcomes hstep
  · have herror : e ≠ .success := by
      rintro rfl
      exact hfailed statusWord_success
    obtain ⟨hdone, hreserved, hle⟩ := statusWord_legal hknown
    exact ⟨rfl, hdone, hreserved, one_le_errOf_statusWord herror, hle⟩
  · exact absurd statusWord_success hfailed

end Sys2Proof.Machine
end

section
/-! PROOFS. The decoder and the encoder, whole: the two round trips between command words and
instructions, and the command that a word placed for the next step performs. -/

namespace Sys2Proof.Machine

/-! Every instruction is found by its own tag (30_encoding.md R50, R52): the facts of
`Laws.TagFindsInstr`, one for each constructor, put together. -/

open Laws.TagFindsInstr in
theorem tagFindsInstr : ∀ i : Instr, Statement i
  | .cvtBOOL f => cvtBOOL f
  | .cvtU8 f => cvtU8 f
  | .cvtS8 f => cvtS8 f
  | .cvtU16AB f => cvtU16AB f
  | .cvtU16BA f => cvtU16BA f
  | .cvtS16AB f => cvtS16AB f
  | .cvtS16BA f => cvtS16BA f
  | .cvtU32ABCD f => cvtU32ABCD f
  | .cvtU32DCBA f => cvtU32DCBA f
  | .cvtU32BADC f => cvtU32BADC f
  | .cvtU32CDAB f => cvtU32CDAB f
  | .cvtS32ABCD f => cvtS32ABCD f
  | .cvtS32DCBA f => cvtS32DCBA f
  | .cvtS32BADC f => cvtS32BADC f
  | .cvtS32CDAB f => cvtS32CDAB f
  | .cvtF32ABCD f => cvtF32ABCD f
  | .cvtF32DCBA f => cvtF32DCBA f
  | .cvtF32BADC f => cvtF32BADC f
  | .cvtF32CDAB f => cvtF32CDAB f
  | .cvtU64ABCDEFGH f => cvtU64ABCDEFGH f
  | .cvtU64HGFEDCBA f => cvtU64HGFEDCBA f
  | .cvtU64BADCFEHG f => cvtU64BADCFEHG f
  | .cvtU64CDABGHEF f => cvtU64CDABGHEF f
  | .cvtU64DCBAHGFE f => cvtU64DCBAHGFE f
  | .cvtU64GHEFCDAB f => cvtU64GHEFCDAB f
  | .cvtU64FEHGBADC f => cvtU64FEHGBADC f
  | .cvtU64EFGHABCD f => cvtU64EFGHABCD f
  | .cvtS64ABCDEFGH f => cvtS64ABCDEFGH f
  | .cvtS64HGFEDCBA f => cvtS64HGFEDCBA f
  | .cvtS64BADCFEHG f => cvtS64BADCFEHG f
  | .cvtS64CDABGHEF f => cvtS64CDABGHEF f
  | .cvtS64DCBAHGFE f => cvtS64DCBAHGFE f
  | .cvtS64GHEFCDAB f => cvtS64GHEFCDAB f
  | .cvtS64FEHGBADC f => cvtS64FEHGBADC f
  | .cvtS64EFGHABCD f => cvtS64EFGHABCD f
  | .cvtF64ABCDEFGH f => cvtF64ABCDEFGH f
  | .cvtF64HGFEDCBA f => cvtF64HGFEDCBA f
  | .cvtF64BADCFEHG f => cvtF64BADCFEHG f
  | .cvtF64CDABGHEF f => cvtF64CDABGHEF f
  | .cvtF64DCBAHGFE f => cvtF64DCBAHGFE f
  | .cvtF64GHEFCDAB f => cvtF64GHEFCDAB f
  | .cvtF64FEHGBADC f => cvtF64FEHGBADC f
  | .cvtF64EFGHABCD f => cvtF64EFGHABCD f

theorem dtypeOf_encode (i : Instr) : dtypeOf (encode i) = i.tag := dtypeOf_cmdWord _ _

theorem fieldsOf_encode {i : Instr} (h : i.WellFormed) : fieldsOf (encode i) = i.fields := by
  obtain ⟨hbitpos, hcount⟩ := h
  exact fieldsOf_cmdWord hbitpos hcount _

/-- Settles O1: the word of an instruction has its tag and its fields, and the tag's row makes the
instruction from the fields. -/
theorem decodeOfEncodeIsIdentity : Obligations.DecodeOfEncodeIsIdentity := by
  intro i hi
  obtain ⟨r, hrow, hmake⟩ := tagFindsInstr i
  rw [decode_of_row ((dtypeOf_encode i).symm ▸ hrow), fieldsOf_encode hi, hmake]

/-- The fields read from a word fit their eight bits (30_encoding.md R46). -/
theorem fieldsOf_fits (v : BitVec 32) : (fieldsOf v).BitposFits ∧ (fieldsOf v).CountFits :=
  ⟨BitVec.isLt _, BitVec.isLt _⟩

/-- Settles O2: what a word decodes to has the word's tag and fields, and those make up the word. -/
theorem encodeOfDecodeIsIdentity : Obligations.EncodeOfDecodeIsIdentity := by
  intro v i h
  obtain ⟨htag, hfields⟩ := decode_ok h
  rw [Instr.WellFormed, encode, htag, hfields]
  exact ⟨fieldsOf_fits v, cmdWord_fieldsOf v⟩

/-- Settles O3: the model's decoder evaluated at the words of the spec, the reserved bits of the
third set to show that they are kept. -/
theorem decoderReadsTheSpecsWords : Obligations.DecoderReadsTheSpecsWords :=
  ⟨rfl, rfl, rfl, rfl, rfl, rfl, rfl, rfl, rfl, rfl, rfl⟩

/-- Settles O21: the step of a `CMD` write is the command of its word, which the decoder decides. -/
theorem stepRunsTheDecodedInstruction : Obligations.StepRunsTheDecodedInstruction := by
  intro s v rest hp
  rw [step_command hp]
  exact ⟨fun i h => command_ok h _, fun e h => command_error h _⟩

/-- A word given by all 32 bits of its value is that word. -/
theorem wordOfBits_toNat (v : BitVec 32) : wordOfBits 32 v.toNat = v := by
  rw [wordOfBits, Nat.mod_eq_of_lt v.isLt, BitVec.ofNat_toNat, BitVec.setWidth_eq]

/-- Settles O22: the placed word is the oldest pending write (O21), and it decodes to the
instruction (O1). -/
theorem placedWordRunsNext : Obligations.PlacedWordRunsNext := by
  intro i s hi
  rw [State.withFetchWord, wordOfBits_toNat]
  obtain ⟨hdecoded, -⟩ := stepRunsTheDecodedInstruction
    { s with pending := .write (.cmd (encode i)) :: s.pending } (encode i) s.pending rfl
  exact hdecoded i (decodeOfEncodeIsIdentity i hi)

end Sys2Proof.Machine
end

section
/-! PROOFS. Steps and runs: what each host operation does, that nothing is stuck, and the invariant
of `STATUS` that every step keeps. -/

namespace Sys2Proof.Machine

open Host

/-! Each step without a command, by the operation it takes (20_memory.md R32,
70_reset_and_hazards.md R180); `step_write` and `step_command` speak of the writes. -/

theorem step_waits {s : State} (h : s.pending = []) : step s = .next s := by
  simp only [step, takeHostOp_none h]

theorem step_read {s : State} {k : Reg} {rest : List HostOp} (hp : s.pending = .read k :: rest) :
    step s = .next { s with pending := rest, answers := s.answers ++ [regRead k s] } := by
  simp only [step, takeHostOp_next hp, hostOp_read]
  rfl

theorem step_reset {s : State} {rest : List HostOp} (hp : s.pending = .reset :: rest) :
    step s = .next (resetRegs { s with pending := rest }) := by
  simp only [step, takeHostOp_next hp, hostOp_reset]

/-- Every step answers a next state. -/
theorem step_answers (s : State) : ∃ t, step s = .next t := by
  unfold step
  cases takeHostOp s with
  | done t => exact ⟨t, rfl⟩
  | command v t => exact command_answers v t

/-! Runs. -/

theorem run_succ {s t : State} (k : Nat) (h : step s = .next t) :
    Core.run core (k + 1) s = Core.run core k t := by
  have hcore : core.step s = .next t := h
  simp only [Core.run, hcore]

/-- A run of `k` steps answers a state from which the `k` oldest operations are gone. -/
theorem run_answers (k : Nat) (s : State) :
    ∃ t, Core.run core k s = .next t ∧ t.pending = s.pending.drop k := by
  induction k generalizing s with
  | zero => exact ⟨s, rfl, rfl⟩
  | succ k ih =>
    obtain ⟨u, hu⟩ := step_answers s
    obtain ⟨t, hrun, hpending⟩ := ih u
    exact ⟨t, (run_succ k hu).trans hrun, by rw [hpending, step_pending hu, List.drop_tail]⟩

/-- Settles O11: every step answers a next state, and so does every run. -/
theorem everyRunIsSafe : Obligations.EveryRunIsSafe := by
  refine fun s => ⟨step_answers s, fun k => ?_⟩
  obtain ⟨t, hrun, -⟩ := run_answers k s
  exact ⟨t, hrun⟩

/-- Settles O12: each step takes one operation, and with none pending the block waits. -/
theorem runEndsWhenItsOperationsArePerformed :
    Obligations.RunEndsWhenItsOperationsArePerformed := by
  intro s
  obtain ⟨t, hrun, hpending⟩ := run_answers s.pending.length s
  rw [List.drop_length] at hpending
  exact ⟨t, hrun, hpending, step_waits hpending⟩

/-! The host's reads and writes (20_memory.md R32, R33). -/

/-- Settles O23: a read by the register it names, and each plain write as the store it is. -/
theorem hostAccessesReadAndStoreWholeRegisters :
    Obligations.HostAccessesReadAndStoreWholeRegisters := by
  refine fun s rest => ⟨fun k hp => ?read, fun _ hp => step_write hp nofun,
    fun _ hp => step_write hp nofun, fun _ hp => step_write hp nofun,
    fun _ hp => step_write hp nofun, fun _ hp => step_write hp nofun⟩
  case read => cases k <;> exact step_read hp

/-- A write after which the register reads as `r`, nothing having been answered meanwhile, is
followed by a read that answers `r`. -/
theorem read_after_write {s t : State} {k : Reg} {r : RegVal} {rest : List HostOp}
    (hp : s.pending = .write r :: .read k :: rest) (hstep : step s = .next t)
    (hvalue : regRead k t = r) (hanswers : t.answers = s.answers) :
    ∃ t u, step s = .next t ∧ step t = .next u ∧ u.pending = rest ∧
      u.answers = s.answers ++ [r] := by
  have hpending : t.pending = .read k :: rest := by rw [step_pending hstep, hp, List.tail_cons]
  exact ⟨t, _, hstep, step_read hpending, rfl, by rw [hvalue, hanswers]⟩

/-- A command answers nothing to the host. -/
theorem command_keeps_answers {v : BitVec 32} {s t : State} (h : command v s = .next t) :
    t.answers = s.answers := by
  obtain ⟨e, rfl⟩ | ⟨n, b, rfl⟩ := command_cases h
  · exact raise_answers e s
  · exact pack_answers b s

/-- Settles O25: a plain write is its store, and the command of a `CMD` write, whatever its outcome,
leaves `CMD` as stored. -/
theorem readAfterWriteAnswersTheWrittenValue :
    Obligations.ReadAfterWriteAnswersTheWrittenValue := by
  rintro s k r rest (⟨v, rfl, rfl⟩ | ⟨v, rfl, rfl⟩ | ⟨v, rfl, rfl⟩ | ⟨v, rfl, rfl⟩ |
    ⟨v, rfl, rfl⟩ | ⟨v, rfl, rfl⟩) hp
  case inr.inr.inr.inr.inr =>
    obtain ⟨t, hstep⟩ := step_answers s
    have hcommand := (step_command hp).symm.trans hstep
    have hcmd := command_keeps_cmd hcommand
    have hanswers := command_keeps_answers hcommand
    exact read_after_write hp hstep (congrArg RegVal.cmd hcmd) hanswers
  all_goals exact read_after_write hp (step_write hp nofun) rfl rfl

/-! Reset and the invariant of `STATUS`, `CMD` and `RESULT` (10_state.md R16, R27). -/

/-- Settles O27: a reset is `resetRegs`, the empty block waits, and of the other steps only writes
reach a register. -/
theorem resetSetsEveryRegisterAndRunsNothing :
    Obligations.ResetSetsEveryRegisterAndRunsNothing := by
  refine ⟨fun s rest hp => step_reset hp, fun s => step_waits, fun s t h hreset hwrite k => ?_⟩
  obtain ⟨-, rfl⟩ | ⟨j, rest, -, rfl⟩ | ⟨r, rest, hp, -, -⟩ | ⟨rest, hp, -⟩ | ⟨v, rest, hp, -⟩ :=
    step_cases h
  case inl => rfl
  case inr.inl => cases k <;> rfl
  case inr.inr.inl => exact absurd (by rw [hp]; rfl) (hwrite r)
  case inr.inr.inr.inl => exact absurd (by rw [hp]; rfl) hreset
  case inr.inr.inr.inr => exact absurd (by rw [hp]; rfl) (hwrite (.cmd v))

/-- Settles O28: the first disjunct, no command having run. -/
theorem resetStateMeetsTheInvariant : Obligations.ResetStateMeetsTheInvariant :=
  .inl ⟨rfl, rfl, rfl⟩

theorem regStore_keeps_cmd {r : RegVal} (s : State) (h : ∀ v, r ≠ .cmd v) :
    (regStore r s).cmd = s.cmd := by
  cases r with
  | cmd v => exact absurd rfl (h v)
  | _ => rfl

/-- The invariant speaks of three registers only. -/
theorem inv_of_eq {s t : State} (hs : s.Inv) (hstatus : t.status = s.status) (hcmd : t.cmd = s.cmd)
    (hresult : t.result = s.result) : t.Inv := by
  rwa [State.Inv, hstatus, hcmd, hresult]

/-- Every command leaves a state that meets the invariant, whatever state it ran on. -/
theorem command_inv {v : BitVec 32} {s t : State} (h : command v s = .next t) : t.Inv := by
  obtain ⟨e, he, rfl⟩ | ⟨n, b, rfl⟩ := command_outcomes h
  · exact .inr (statusWord_legal he)
  · exact .inr (statusWord_legal (e := .success) nofun)

/-- Settles O29: a command and a reset establish the invariant, and every other step leaves the
three registers it speaks of. -/
theorem everyStepKeepsTheStatusInvariant : Obligations.EveryStepKeepsTheStatusInvariant := by
  intro s t hs h
  obtain ⟨-, rfl⟩ | ⟨k, rest, -, rfl⟩ | ⟨r, rest, -, hr, rfl⟩ | ⟨rest, -, rfl⟩ |
    ⟨v, rest, hp, -⟩ := step_cases h
  case inl => exact hs
  case inr.inl => exact inv_of_eq hs rfl rfl rfl
  case inr.inr.inl =>
    exact inv_of_eq hs (regStore_status r _) (regStore_keeps_cmd _ hr) (regStore_result r _)
  case inr.inr.inr.inl => exact .inl ⟨rfl, rfl, rfl⟩
  case inr.inr.inr.inr => exact command_inv ((step_command hp).symm.trans h)

/-- Every command sets DONE (10_state.md R16). -/
theorem command_done {v : BitVec 32} {s t : State} (h : command v s = .next t) :
    doneOf t.status = true := by
  obtain ⟨e, rfl⟩ | ⟨n, b, rfl⟩ := command_cases h
  · exact doneOf_statusWord e
  · exact doneOf_statusWord .success

/-- Settles O30: a command sets DONE, and a step that is neither command nor reset leaves STATUS. -/
theorem doneIsClearedByResetOnly : Obligations.DoneIsClearedByResetOnly := by
  intro s t h
  have hcmd v (hp : s.pending.head? = some (.write (.cmd v))) : doneOf t.status = true := by
    obtain ⟨rest, hrest⟩ := List.head?_eq_some_iff.1 hp
    exact command_done ((step_command hrest).symm.trans h)
  refine ⟨fun hdone hreset => ?_, hcmd⟩
  by_cases hc : ∃ v, s.pending.head? = some (.write (.cmd v))
  · obtain ⟨v, hv⟩ := hc
    exact hcmd v hv
  · obtain ⟨hstatus, -⟩ := step_keeps_status_result h hreset (not_exists.1 hc)
    rwa [hstatus]

end Sys2Proof.Machine
end

section
/-! PROOFS. What an instruction depends on: each is one command whose outcome is a function of its
tag, its fields and the operand registers the tag reads. -/

namespace Sys2Proof.Machine

/-! The decoder of a tag, read off the sub-fields of the tag (30_encoding.md R48, R49). -/

/-- The 16-bit byte order of a tag, by its index `P`. -/
def pat16At (tag : BitVec 8) : Pat16 := if patternIndex tag = 0 then .ab else .ba

/-- The 32-bit byte order of a tag, by its index `P`. -/
def pat32At (tag : BitVec 8) : Pat32 :=
  match patternIndex tag with
  | 0 => .abcd
  | 1 => .dcba
  | 2 => .badc
  | _ => .cdab

/-- The 64-bit byte order of a tag, by its index `P`. -/
def pat64At (tag : BitVec 8) : Pat64 :=
  match patternIndex tag with
  | 0 => .abcdefgh
  | 1 => .hgfedcba
  | 2 => .badcfehg
  | 3 => .cdabghef
  | 4 => .dcbahgfe
  | 5 => .ghefcdab
  | 6 => .fehgbadc
  | _ => .efghabcd

/-- The integer reading of a tag's kind: two's complement for kind 1, unsigned for kind 0. -/
def readingOf (tag : BitVec 8) {n : Nat} (raw : BitVec n) : Int :=
  if kindOf tag = 1 then sint raw else uint raw

/-- The scaled value of 32 raw bits: kind 2 is binary32, the others are integers. -/
def scaledBits32 (tag : BitVec 8) (raw : BitVec 32) (s : State) : BitVec 64 :=
  if kindOf tag = 2 then (float32Member raw s).setWidth 64
  else scaledResult 32 (readingOf tag raw) s

/-- The scaled value of 64 raw bits: kind 2 is binary64, the others are integers. -/
def scaledBits64 (tag : BitVec 8) (raw : BitVec 64) (s : State) : BitVec 64 :=
  if kindOf tag = 2 then (float64Member raw s).setWidth 64
  else scaledResult 64 (readingOf tag raw) s

/-- What the decoder of a tag returns, zero-extended: the width class says which operand words it
takes, the pattern in which order, and the kind how the raw value is read. A tag of no class has no
decoder. -/
def decoderResult (tag : BitVec 8) (bitpos : Nat) (s : State) : Except ErrorKind (BitVec 64) :=
  if tag = 0#8 then (boolMember bitpos s.x0).map (·.setWidth 64)
  else
    match widthClass tag with
    | 1 => .ok (scaledResult 8 (readingOf tag (lo8 s.x0)) s)
    | 2 => .ok (scaledResult 16 (readingOf tag (ord16 (pat16At tag) s.x0)) s)
    | 3 => .ok (scaledBits32 tag (reorder32 (pat32At tag) s.x0 s.x1) s)
    | 4 => .ok (scaledBits64 tag (reorder64 (pat64At tag) s.x0 s.x1 s.x2 s.x3) s)
    | _ => .error .invalidType

/-- The tag of an instruction is a valid one unless it is the excluded float64 tag (44_float.md
R134). -/
def validTag (tag : BitVec 8) (s : State) : Bool :=
  !(decide (widthClass tag = 4 ∧ kindOf tag = 2) && s.excludes (pat64At tag))

/-- The outcome of a command: the first error of the dispatcher's checks, or what the decoder
returns (40_dispatch.md R60). -/
def outcomeOf (tag : BitVec 8) (f : CmdFields) (s : State) : Except ErrorKind (BitVec 64) :=
  match firstError (needOf tag) (validTag tag s) f with
  | some e => .error e
  | none => decoderResult tag f.bitpos s

/-- Packing a member is packing its zero extension. -/
theorem runCommand_map_setWidth {n need : Nat} {valid : Bool} (f : CmdFields)
    (m : Except ErrorKind (BitVec n)) (s : State) :
    runCommand need valid f m s = runCommand need valid f (m.map (·.setWidth 64)) s := by
  cases m with
  | error e => rfl
  | ok b => simp only [runCommand, finish, pack, Except.map, BitVec.setWidth_eq]

/-- Every instruction is the command of its tag. -/
theorem exec_eq_runCommand (i : Instr) (s : State) :
    exec i s = runCommand (needOf i.tag) (validTag i.tag s) i.fields
      (decoderResult i.tag i.fields.bitpos s) s := by
  cases i <;> simp only [Instr.tag] <;> exact runCommand_map_setWidth _ _ _

/-- Every instruction answers a next state: its outcome, packed or raised. -/
theorem exec_eq_finish (i : Instr) (s : State) :
    exec i s = .next (finish (outcomeOf i.tag i.fields s) s) := by
  rw [exec_eq_runCommand, runCommand, outcomeOf]
  cases firstError (needOf i.tag) (validTag i.tag s) i.fields <;> rfl

/-- None of the errors of the dispatcher's checks is Success. -/
theorem firstError_ne_success {need : Nat} {valid : Bool} {f : CmdFields} {e : ErrorKind}
    (h : firstError need valid f = some e) : e ≠ .success := by
  rintro rfl
  simpa using firstError_cases h

/-- Nor is the error of a decoder. -/
theorem decoderResult_error_ne_success {tag : BitVec 8} {bitpos : Nat} {s : State} {e : ErrorKind}
    (h : decoderResult tag bitpos s = .error e) : e ≠ .success := by
  unfold decoderResult at h
  split at h
  · cases hb : boolMember bitpos s.x0 with
    | error e' =>
      rw [hb] at h
      cases h
      rw [boolMember_error hb]
      nofun
    | ok b =>
      rw [hb] at h
      cases h
  · split at h <;> cases h
    nofun

/-- So no command raises Success. -/
theorem outcomeOf_error_ne_success {tag : BitVec 8} {f : CmdFields} {s : State} {e : ErrorKind}
    (h : outcomeOf tag f s = .error e) : e ≠ .success := by
  unfold outcomeOf at h
  split at h
  case h_1 hcheck =>
    cases h
    exact firstError_ne_success hcheck
  case h_2 => exact decoderResult_error_ne_success h

/-- Whether a decoder raises an error does not depend on the draw of a free value. -/
theorem decoderResult_ok_of_draws {tag : BitVec 8} {bitpos : Nat} {s : State} {r : BitVec 64}
    (h : decoderResult tag bitpos s = .ok r) (d : Nat) :
    ∃ r', decoderResult tag bitpos { s with draws := d } = .ok r' := by
  unfold decoderResult at h ⊢
  split_ifs at h ⊢
  · exact ⟨r, h⟩
  · split at h <;> cases h <;> exact ⟨_, rfl⟩

/-- Neither does the outcome of the command. -/
theorem outcomeOf_ok_of_draws {tag : BitVec 8} {f : CmdFields} {s : State} {r : BitVec 64}
    (h : outcomeOf tag f s = .ok r) (d : Nat) :
    ∃ r', outcomeOf tag f { s with draws := d } = .ok r' := by
  unfold outcomeOf at h
  split at h
  case h_1 => cases h
  case h_2 hcheck =>
    obtain ⟨r', hr'⟩ := decoderResult_ok_of_draws h d
    refine ⟨r', ?_⟩
    rw [outcomeOf, show validTag tag { s with draws := d } = validTag tag s from rfl, hcheck, hr']

/-! The statements about all instructions (10_state.md R25, 40_dispatch.md R66, R69). -/

/-- Settles O14: an instruction raises an error, which writes STATUS alone, or packs a member, which
leaves STATUS 0x80. -/
theorem instructionsWriteOnlyStatusAndResult :
    Obligations.InstructionsWriteOnlyStatusAndResult := by
  intro i s t h
  obtain ⟨e, rfl⟩ | ⟨n, b, rfl⟩ := exec_cases h
  · exact ⟨rfl, rfl, rfl, rfl, rfl, rfl, rfl, rfl, rfl, fun _ => ⟨rfl, rfl⟩⟩
  · exact ⟨rfl, rfl, rfl, rfl, rfl, rfl, rfl, rfl, rfl, fun hne => absurd statusWord_success hne⟩

/-- Settles O15: the outcome of a command does not consult STATUS, and finishing it overwrites
STATUS. -/
theorem errorCodeIsNotSticky : Obligations.ErrorCodeIsNotSticky := by
  intro i s old
  rw [exec_eq_finish, exec_eq_finish,
    show outcomeOf i.tag i.fields { s with status := old } = outcomeOf i.tag i.fields s from rfl]
  cases outcomeOf i.tag i.fields s <;> rfl

/-- STATUS is 0x80 after no error. -/
theorem statusWord_ne_success {e : ErrorKind} (he : e ≠ .success) : statusWord e ≠ 0x80#8 := by
  cases e with
  | success => exact absurd rfl he
  | _ => decide

/-- Settles O16: the outcome of the command is a function of the registers and parameters named, and
finishing it writes the same STATUS, and RESULT on success, in both states. -/
theorem outcomeDependsOnInputsAlone : Obligations.OutcomeDependsOnInputsAlone := by
  intro i s u t w h0 h1 h2 h3 hscale hdraws hexcluded ht hw
  have hsame : outcomeOf i.tag i.fields s = outcomeOf i.tag i.fields u := by
    cases s
    cases u
    subst h0 h1 h2 h3 hscale hdraws hexcluded
    rfl
  rw [exec_eq_finish, Host.Outcome.next.injEq] at ht hw
  subst ht hw
  cases ho : outcomeOf i.tag i.fields u with
  | error e =>
    rw [hsame, ho]
    exact ⟨rfl, fun h => absurd h (statusWord_ne_success (outcomeOf_error_ne_success ho)),
      fun _ => ⟨rfl, rfl⟩⟩
  | ok r =>
    rw [hsame, ho]
    exact ⟨rfl, fun _ => rfl, fun h => absurd statusWord_success h⟩

/-- The checks consult RP, DP and COUNT, and COUNT only up to the need. -/
theorem firstError_congr {need : Nat} {f g : CmdFields} (valid : Bool) (hneed : 1 ≤ need)
    (hrp : f.rp = g.rp) (hdp : f.dp = g.dp)
    (hcount : f.count = g.count ∨ (need ≤ f.count ∧ need ≤ g.count)) :
    firstError need valid f = firstError need valid g := by
  have hzero : f.count = 0 ↔ g.count = 0 := by omega
  have hshort : f.count < need ↔ g.count < need := by omega
  simp only [firstError, hrp, hdp, hzero, hshort]

/-- Only the boolean decoder consults BITPOS. -/
theorem decoderResult_congr {tag : BitVec 8} {b c : Nat} (h : tag = 0#8 → b = c) (s : State) :
    decoderResult tag b s = decoderResult tag c s := by
  by_cases htag : tag = 0#8
  · rw [h htag]
  · simp only [decoderResult, if_neg htag]

/-- Settles O17: the checks and the decoder find the same in the fields they consult. -/
theorem fieldsNotConsultedHaveNoEffect : Obligations.FieldsNotConsultedHaveNoEffect := by
  intro i j s htag hrp hdp hcount hbitpos
  rw [exec_eq_finish, exec_eq_finish, outcomeOf, outcomeOf, ← htag,
    firstError_congr _ (one_le_needOf _) hrp hdp hcount, decoderResult_congr hbitpos]

/-- A change of registers that the decoder of an instruction does not read, and that no instruction
writes, passes through the instruction. -/
theorem exec_commutes {i : Instr} {s t : State} (g : State → State)
    (hraise : ∀ e s, g (raise e s) = raise e (g s))
    (hpack : ∀ (b : BitVec 64) s, g (pack b s) = pack b (g s))
    (hvalid : validTag i.tag (g s) = validTag i.tag s)
    (hdecoder : decoderResult i.tag i.fields.bitpos (g s) = decoderResult i.tag i.fields.bitpos s)
    (h : exec i s = .next t) : exec i (g s) = .next (g t) := by
  rw [exec_eq_runCommand] at h ⊢
  rw [hvalid, hdecoder]
  exact runCommand_commutes g hraise hpack h

/-- A decoder of need 1 reads `x[0]` alone of the operand words (40_dispatch.md R66). -/
theorem decoderResult_of_need_one {tag : BitVec 8} (h : needOf tag = 1) (bitpos : Nat) (s : State)
    (a b c : Word) :
    decoderResult tag bitpos { s with x1 := a, x2 := b, x3 := c } = decoderResult tag bitpos s := by
  unfold decoderResult
  split_ifs
  · rfl
  · split
    case h_3 hclass | h_4 hclass => simp [needOf, hclass] at h
    all_goals rfl

/-- A decoder of need 2 reads `x[0]` and `x[1]` alone (40_dispatch.md R66). -/
theorem decoderResult_of_need_two {tag : BitVec 8} (h : needOf tag = 2) (bitpos : Nat) (s : State)
    (b c : Word) :
    decoderResult tag bitpos { s with x2 := b, x3 := c } = decoderResult tag bitpos s := by
  unfold decoderResult
  split_ifs
  · rfl
  · split
    case h_4 hclass => simp [needOf, hclass] at h
    all_goals rfl

/-- Settles O18: what a decoder reads is bounded by its need, and the boolean one reads no SCALE. -/
theorem registersNotReadHaveNoEffect : Obligations.RegistersNotReadHaveNoEffect := by
  intro i s t h
  refine ⟨fun hneed a b c => ?_, fun hneed b c => ?_, fun htag a => ?_⟩
  · exact exec_commutes (fun u => { u with x1 := a, x2 := b, x3 := c }) (fun _ _ => rfl)
      (fun _ _ => rfl) rfl (decoderResult_of_need_one hneed _ _ _ _ _) h
  · exact exec_commutes (fun u => { u with x2 := b, x3 := c }) (fun _ _ => rfl)
      (fun _ _ => rfl) rfl (decoderResult_of_need_two hneed _ _ _ _) h
  · exact exec_commutes (fun u => { u with scale := a }) (fun _ _ => rfl) (fun _ _ => rfl) rfl
      (by simp only [decoderResult, if_pos htag]) h

/-- Settles O20: a failing command has the same outcome again, STATUS not being consulted; after a
completed one only the draw differs, which decides no error. -/
theorem repeatedCommandRepeatsItsOutputs : Obligations.RepeatedCommandRepeatsItsOutputs := by
  intro i s t u ht hu
  rw [exec_eq_finish, Host.Outcome.next.injEq] at ht hu
  cases ho : outcomeOf i.tag i.fields s with
  | error e =>
    obtain rfl : raise e s = t := by rw [← ht, ho]; rfl
    have hagain : outcomeOf i.tag i.fields (raise e s) = .error e := ho
    obtain rfl : raise e s = u := by rw [← hu, hagain]; rfl
    exact ⟨rfl, fun _ => rfl, fun _ => rfl⟩
  | ok r =>
    obtain rfl : pack r s = t := by rw [← ht, ho]; rfl
    obtain ⟨r', hr'⟩ := outcomeOf_ok_of_draws ho (s.draws + 1)
    have hagain : outcomeOf i.tag i.fields (pack r s) = .ok r' := hr'
    obtain rfl : pack r' (pack r s) = u := by rw [← hu, hagain]; rfl
    refine ⟨rfl, fun h => absurd statusWord_success h, fun hdraw => ?_⟩
    obtain ⟨t', ht', hresult⟩ := hdraw (s.draws + 1)
    rw [exec_eq_finish, hr', Host.Outcome.next.injEq] at ht'
    subst ht'
    exact hresult

/-! What a successful command writes (40_dispatch.md R68). -/

/-- A command that leaves STATUS 0x80 has packed a member of its tag's width. -/
theorem command_succeeds {v : BitVec 32} {s t : State} (h : command v s = .next t)
    (hstatus : t.status = 0x80#8) : ∃ b : BitVec (memberWidth (dtypeOf v)), t = pack b s := by
  cases hd : decode v with
  | error e =>
    rw [command_error hd] at h
    obtain ⟨e, he, rfl⟩ | ⟨e, -, he, rfl⟩ | ⟨b, -, hb, -⟩ := runCommand_cases h
    · exact absurd hstatus (statusWord_ne_success (firstError_ne_success he))
    · cases he
      exact absurd hstatus (statusWord_ne_success (e := .invalidType) nofun)
    · cases hb
  | ok i =>
    obtain ⟨htag, hfields⟩ := decode_ok hd
    obtain ⟨n, m, hexec, rfl, herr, -⟩ := exec_spec i s
    rw [command_ok hd, hexec, hfields] at h
    rw [← htag]
    obtain ⟨e, he, rfl⟩ | ⟨e, -, he, rfl⟩ | ⟨b, -, -, rfl⟩ := runCommand_cases h
    · exact absurd hstatus (statusWord_ne_success (firstError_ne_success he))
    · obtain ⟨-, -, rfl⟩ := herr e he
      exact absurd hstatus (statusWord_ne_success (e := .invalidBitPosition) nofun)
    · exact ⟨b, rfl⟩

/-- Settles O10: what is packed is a member of the tag's width, so RESULT is below `2 ^ N`. -/
theorem successfulCommandPacksMember : Obligations.SuccessfulCommandPacksMember := by
  intro s t v rest hp hstep hstatus
  obtain ⟨b, rfl⟩ := command_succeeds ((step_command hp).symm.trans hstep) hstatus
  refine ⟨pack_eq_completed b _, ?_⟩
  rw [pack_result, BitVec.toNat_setWidth]
  exact (Nat.mod_le _ _).trans_lt b.isLt

/-! The excluded float64 tag (44_float.md R134). -/

/-- The command of the excluded pattern is turned away by the dispatcher's third check. -/
theorem exec_float64_excluded {p : Pat64} {f : CmdFields} {s : State} (hr : f.rp = true)
    (hd : f.dp = true) (hc : 1 ≤ f.count) (hp : s.f64Excluded = some p) :
    exec (float64 p f) s = .next (raise .invalidType s) := by
  have hinvalid : (!s.excludes p) = false := by simp [State.excludes, hp]
  rw [exec_float64, hinvalid]
  exact runCommand_error _ _ (firstError_invalid hr hd hc)

/-- Settles O40: the third check, for each of the eight patterns. -/
theorem excludedFloat64TagIsInvalidType : Obligations.ExcludedFloat64TagIsInvalidType := by
  intro f s hr hd hc
  have excluded p := exec_float64_excluded (p := p) (s := s) hr hd hc
  exact ⟨excluded .abcdefgh, excluded .hgfedcba, excluded .badcfehg, excluded .cdabghef,
    excluded .dcbahgfe, excluded .ghefcdab, excluded .fehgbadc, excluded .efghabcd⟩

end Sys2Proof.Machine
end

section
/-! PROOFS. The operand forms: the two integer readings and the byte muxes, in bytes, in words and
as the three-stage mechanism. -/

namespace Sys2Proof.Machine

/-! The integer readings (00_scope.md R5). -/

/-- Settles O42: the sign bit decides whether `2 ^ N` is taken off, and the range is that of the
bit-vector reading. -/
theorem integerReadingsAreUnsignedAndTwosComplement :
    Obligations.IntegerReadingsAreUnsignedAndTwosComplement := by
  intro n v
  have hsign : v.msb = v.getLsbD n := BitVec.msb_eq_getLsbD_last v
  refine ⟨rfl, fun h => ?_, fun h => ?_, ?_, ?_⟩
  · rw [sint, hsign, h, if_neg Bool.false_ne_true]
  · rw [sint, hsign, h, if_pos rfl]
  · rw [sint_eq_toInt]
    exact BitVec.le_toInt v
  · rw [sint_eq_toInt]
    exact BitVec.toInt_lt

/-! Bytes and words. -/

@[simp] theorem swap16_swap16 (w : Word) : swap16 (swap16 w) = w := by
  rw [swap16, lo8_swap16, hi8_swap16, hi8_append_lo8]

/-- Two words are their four bytes. -/
theorem words2_eq_bytes (u w : Word) : u ++ w = hi8 u ++ lo8 u ++ hi8 w ++ lo8 w := by
  apply BitVec.eq_of_toNat_eq
  rw [words2_toNat, append_toNat (hi8 u ++ lo8 u ++ hi8 w), append_toNat (hi8 u ++ lo8 u),
    append_toNat, hi8_toNat, hi8_toNat, lo8_toNat, lo8_toNat]
  omega

/-- The same of two swapped words. -/
theorem swapped2_eq_bytes (u w : Word) :
    swap16 u ++ swap16 w = lo8 u ++ hi8 u ++ lo8 w ++ hi8 w := by
  rw [words2_eq_bytes, hi8_swap16, hi8_swap16, lo8_swap16, lo8_swap16]

/-- The upper and the lower word of two. -/
theorem extractLsb'_words2 (a b : Word) :
    (a ++ b : BitVec 32).extractLsb' 16 16 = a ∧ (a ++ b : BitVec 32).extractLsb' 0 16 = b := by
  have ha := a.isLt
  have hb := b.isLt
  constructor <;> apply BitVec.eq_of_toNat_eq <;>
    rw [BitVec.extractLsb'_toNat, Nat.shiftRight_eq_div_pow, words2_toNat] <;> omega

/-- The four words of four, the first the most significant. -/
theorem extractLsb'_words4 (a b c d : Word) :
    (a ++ b ++ c ++ d : BitVec 64).extractLsb' 48 16 = a ∧
      (a ++ b ++ c ++ d : BitVec 64).extractLsb' 32 16 = b ∧
      (a ++ b ++ c ++ d : BitVec 64).extractLsb' 16 16 = c ∧
      (a ++ b ++ c ++ d : BitVec 64).extractLsb' 0 16 = d := by
  have ha := a.isLt
  have hb := b.isLt
  have hc := c.isLt
  have hd := d.isLt
  refine ⟨?_, ?_, ?_, ?_⟩ <;> apply BitVec.eq_of_toNat_eq <;>
    rw [BitVec.extractLsb'_toNat, Nat.shiftRight_eq_div_pow, words4_toNat] <;> omega

/-! The 16-bit mux (41_bool_int8_int16.md R83). -/

theorem ord16_ab (w : Word) : ord16 .ab w = w := BitVec.eq_of_toNat_eq (ord16_toNat .ab w)

theorem ord16_ba (w : Word) : ord16 .ba w = swap16 w :=
  BitVec.eq_of_toNat_eq ((ord16_toNat .ba w).trans (swap16_toNat w).symm)

/-- Settles O41: AB is the identity and BA is `swap16`, which undoes itself. -/
theorem mux16KeepsOrSwapsTheBytes : Obligations.Mux16KeepsOrSwapsTheBytes := by
  intro w
  simp only [ord16_ab, ord16_ba, swap16_swap16]
  exact ⟨trivial, rfl, (hi8_append_lo8 w).symm, rfl, trivial, trivial, rfl, rfl⟩

/-! The 32-bit mux (42_int32.md R90). -/

/-- Settles O43: each pattern delivers its words (`reorder32_words`), and a word is its two bytes.
-/
theorem mux32PatternsByName : Obligations.Mux32PatternsByName := by
  refine ⟨fun x0 x1 => ?_, by decide, by decide, by decide, by decide⟩
  simp only [reorder32_words]
  exact ⟨words2_eq_bytes x0 x1, swapped2_eq_bytes x1 x0, swapped2_eq_bytes x0 x1,
    words2_eq_bytes x1 x0, trivial, trivial, trivial, trivial⟩

/-- Settles O44: every pattern swaps the two words, the bytes in each, or both, and each of these
undoes itself. -/
theorem mux32ReversalAndInvolution : Obligations.Mux32ReversalAndInvolution := by
  refine ⟨fun x0 x1 => by simp only [reorder32_words], fun p x0 x1 => ?_⟩
  cases p <;> simp only [reorder32_words, extractLsb'_words2, swap16_swap16]

/-! The 64-bit mux (43_int64.md R100, R101). -/

/-- Settles O45: each pattern delivers its words (`reorder64_words`), a word is its two bytes, and
the eight byte-select lists are evaluated. -/
theorem mux64PatternsByName : Obligations.Mux64PatternsByName := by
  refine ⟨fun x0 x1 x2 x3 => ?_, fun w => ⟨rfl, (hi8_append_lo8 w).symm⟩, by decide⟩
  simp only [reorder64_words, and_self]

theorem bytesOf_append (us ws : List Word) : bytesOf (us ++ ws) = bytesOf us ++ bytesOf ws := by
  induction us with
  | nil => rfl
  | cons u us ih => rw [List.cons_append, bytesOf, bytesOf, ih]; rfl

/-- Reversing the byte sequence reverses the words and swaps the bytes of each. -/
theorem bytesOf_reverse (ws : List Word) :
    (bytesOf ws).reverse = bytesOf (ws.reverse.map swap16) := by
  induction ws with
  | nil => rfl
  | cons w ws ih => simp [bytesOf, bytesOf_append, ih]

/-- The second triple of each row of the table is the first one read from the other end: the words
in the opposite order, swapped where they were not, and the whole reversed. -/
theorem threeStage_reversed (order : List Nat) (swapEach : Bool) (words : List Word) :
    threeStage order.reverse (!swapEach) true words = threeStage order swapEach false words := by
  cases swapEach <;>
    simp [threeStage, bytesOf_reverse, Function.comp_def]

/-- The order in which the first triple of a pattern takes the words (43_int64.md R101). -/
def wordOrder : Pat64 → List Nat
  | .abcdefgh | .badcfehg => [1, 2, 3, 4]
  | .cdabghef | .dcbahgfe => [2, 1, 4, 3]
  | .ghefcdab | .hgfedcba => [4, 3, 2, 1]
  | .efghabcd | .fehgbadc => [3, 4, 1, 2]

/-- Whether the first triple of a pattern swaps the bytes of each word (43_int64.md R101). -/
def swapsWords : Pat64 → Bool
  | .abcdefgh | .cdabghef | .ghefcdab | .efghabcd => false
  | .badcfehg | .dcbahgfe | .hgfedcba | .fehgbadc => true

/-- The mux is the first triple of its pattern. -/
theorem reorder64_eq_threeStage (p : Pat64) (x0 x1 x2 x3 : Word) :
    reorder64 p x0 x1 x2 x3 =
      threeStage (wordOrder p) (swapsWords p) false [x0, x1, x2, x3] := by
  cases p <;>
    simp [reorder64, selectBytes, perm64, threeStage, wordOrder, swapsWords, bytesOf]

/-- The mux undoes itself: every pattern selects byte `i` from place `i` XOR a key. -/
theorem reorder64_involutive (p : Pat64) (x0 x1 x2 x3 : Word) :
    reorder64 p ((reorder64 p x0 x1 x2 x3).extractLsb' 48 16)
        ((reorder64 p x0 x1 x2 x3).extractLsb' 32 16) ((reorder64 p x0 x1 x2 x3).extractLsb' 16 16)
        ((reorder64 p x0 x1 x2 x3).extractLsb' 0 16) = x0 ++ x1 ++ x2 ++ x3 := by
  cases p <;> simp only [reorder64_words, extractLsb'_words4, swap16_swap16]

/-- Settles O46: both triples of each row of the corrected table (90_conflicts.md C1), and the
involution. -/
theorem mux64AgreesWithThreeStageMechanism : Obligations.Mux64AgreesWithThreeStageMechanism := by
  intro x0 x1 x2 x3
  have first p := reorder64_eq_threeStage p x0 x1 x2 x3
  have second p := (first p).trans (threeStage_reversed _ _ _).symm
  exact ⟨first .abcdefgh, second .abcdefgh, first .hgfedcba, second .hgfedcba,
    first .badcfehg, second .badcfehg, first .cdabghef, second .cdabghef,
    first .dcbahgfe, second .dcbahgfe, first .ghefcdab, second .ghefcdab,
    first .fehgbadc, second .fehgbadc, first .efghabcd, second .efghabcd,
    fun p => reorder64_involutive p x0 x1 x2 x3⟩

end Sys2Proof.Machine
end

section
/-! PROOFS. The product and the narrowing (45_scaling_numerics.md R142, R149), and the float results
they give (R150, R151). -/

namespace Sys2Proof.Machine

/-! The product. -/

/-- A binary64 datum that is a number, with its sign. -/
theorem Datum.eq_fin_of_isFinite {d : Datum} (h : d.isFinite = true) :
    ∃ m e, d = .fin d.negative m e := by
  cases d with
  | nan | inf _ => cases h
  | fin neg m e => exact ⟨m, e, rfl⟩

/-- The product of two numbers is one rounding of their exact product, with the exclusive-or of the
signs. -/
theorem fmul64_eq_round {a b : Datum} (ha : a.isFinite = true) (hb : b.isFinite = true) :
    ∃ m e, fmul64 a b = binary64.round (a.negative != b.negative) m e ∧
      |a.value * b.value| = m * 2 ^ e := by
  obtain ⟨m, e, hma⟩ := a.eq_fin_of_isFinite ha
  obtain ⟨n, k, hnb⟩ := b.eq_fin_of_isFinite hb
  refine ⟨m * n, e + k, ?_, ?_⟩
  · conv_lhs => rw [hma, hnb]
    rfl
  · rw [hma, hnb, abs_mul, Datum.abs_value, Datum.abs_value, zpow_add₀ two_ne_zero]
    push_cast
    ring

theorem fmul64_roundsTo {a b : Datum} (ha : a.isFinite = true) (hb : b.isFinite = true) :
    binary64.RoundsTo (a.negative != b.negative) |a.value * b.value| (fmul64 a b) := by
  obtain ⟨m, e, hround, hx⟩ := fmul64_eq_round ha hb
  rw [hround, hx]
  exact Format.round_roundsTo sound64 _ m e

/-- An infinity times a number that is not zero is the infinity of the exclusive-or sign, in either
order. -/
theorem fmul64_inf {d : Datum} (hd : d.isFinite = true) (h0 : d.value ≠ 0) (n : Bool) :
    fmul64 (.inf n) d = .inf (n != d.negative) ∧ fmul64 d (.inf n) = .inf (n != d.negative) := by
  obtain ⟨m, e, hmd⟩ := d.eq_fin_of_isFinite hd
  have hm : m ≠ 0 := fun h => h0 (by rw [hmd, Datum.value_zero, h])
  rw [hmd]
  simp only [fmul64, if_neg hm, Datum.negative, bne_comm, and_self]

/-- The sign of an encoding is its top bit, where it denotes no NaN. -/
theorem f64_negative (a : BitVec 64) : (f64 a).negative = (a.msb && f64 a != .nan) := by
  obtain ⟨neg, b, -, hneg, ⟨-, m, e, hd, -⟩ | ⟨-, hd⟩ | ⟨-, hd⟩⟩ := f64_cases a <;>
    simp [hd, hneg, Datum.negative]

/-- Settles O48: the finite case is one rounding, and the special cases are those in which the
product is a NaN (`fmul64_eq_nan_iff`) or an infinity. -/
theorem productIsCorrectlyRounded : Obligations.ProductIsCorrectlyRounded := by
  refine fun a b => ⟨fmul64_roundsTo, fun h => ?nan, fun n ha hb h0 => ⟨?infZero, ?zeroInf⟩,
    fun n ha hb h0 => ?inf, fun n k ha hb => ?infInf, f64_negative a⟩
  case nan => exact (fmul64_eq_nan_iff _ _).2 (h.imp_right .inl)
  case infZero => exact (fmul64_eq_nan_iff _ _).2 (.inr (.inr (.inr ⟨hb, h0, n, ha⟩)))
  case zeroInf => exact (fmul64_eq_nan_iff _ _).2 (.inr (.inr (.inl ⟨hb, h0, n, ha⟩)))
  case inf =>
    rw [ha]
    exact fmul64_inf hb h0 n
  case infInf => rw [ha, hb, fmul64]

/-! The narrowing. -/

/-- Settles O50: a number is rounded once to binary32, and the other two data are carried over by
name. -/
theorem binary64NarrowsToNearestEven : Obligations.Binary64NarrowsToNearestEven := by
  refine fun p => ⟨fun hp => ?finite, fun _ h => by rw [h, f64to32], fun h => by rw [h, f64to32]⟩
  obtain ⟨m, e, hd⟩ := (f64 p).eq_fin_of_isFinite hp
  rw [hd, Datum.abs_value]
  exact Format.round_roundsTo sound32 _ m e

/-! The results of the float commands. -/

/-- Both infinities have an encoding. -/
theorem inf_encoded32 (neg : Bool) : ∃ b, Datum.inf neg = f32 b := by
  cases neg
  · exact ⟨0x7F800000#32, by decide⟩
  · exact ⟨0xFF800000#32, by decide⟩

theorem inf_encoded64 (neg : Bool) : ∃ b, Datum.inf neg = f64 b := by
  cases neg
  · exact ⟨0x7FF0000000000000#64, by decide⟩
  · exact ⟨0xFFF0000000000000#64, by decide⟩

/-- What the narrowing gives has an encoding, unless it is a NaN. -/
theorem f64to32_encoded {d : Datum} (h : f64to32 d ≠ .nan) : ∃ b, f64to32 d = f32 b := by
  cases d with
  | nan => exact absurd rfl h
  | inf neg => exact inf_encoded32 neg
  | fin neg m e => exact round32_encoded

/-- What the product gives has an encoding, unless it is a NaN. -/
theorem fmul64_encoded {a b : Datum} (h : fmul64 a b ≠ .nan) : ∃ c, fmul64 a b = f64 c := by
  cases a with
  | nan => exact absurd rfl h
  | inf n =>
    cases b with
    | nan => exact absurd rfl h
    | inf k => exact inf_encoded64 _
    | fin k m e =>
      rw [fmul64, if_neg fun h0 => h (if_pos h0)]
      exact inf_encoded64 _
  | fin n m e =>
    cases b with
    | nan => exact absurd rfl h
    | inf k =>
      rw [fmul64, if_neg fun h0 => h (if_pos h0)]
      exact inf_encoded64 _
    | fin k l j => exact round64_encoded

/-- Widening and narrowing again changes no binary32 datum: the widening is exact, and a magnitude
of binary32 is rounded to itself. -/
theorem f64to32_f32to64 (a : BitVec 32) : f64to32 (f32to64 (f32 a)) = f32 a := by
  obtain ⟨neg, b, hbits, -, ⟨hb, m, e, hd, hmag, -⟩ | ⟨-, hd⟩ | ⟨-, hd⟩⟩ := f32_cases a
  case inr.inl | inr.inr => rw [hd, f32to64, f64to32]
  obtain ⟨-, hfin, hval, hneg⟩ := f32to64_of_finite (a := a) (by rw [hd]; rfl)
  obtain ⟨n, k, hw⟩ := Datum.eq_fin_of_isFinite hfin
  rw [hneg] at hw
  have hx : (m : ℚ) * 2 ^ e = n * 2 ^ k := by
    have habs := congrArg abs hval
    rwa [hw, Datum.abs_value, hd, Datum.abs_value, eq_comm] at habs
  calc f64to32 (f32to64 (f32 a)) = binary32.round neg n k := by rw [hw, hd]; rfl
    _ = binary32.datum (binary32.signBits neg + b) := by
      rw [Format.round, Format.roundBits_exact sound32 hb (hmag.symm.trans hx)]
    _ = f32 a := by rw [f32, hbits]

/-- Widening keeps the encodings: what it gives is a binary64 datum. -/
theorem f32to64_encoded {a : BitVec 32} (h : f32 a ≠ .nan) : ∃ b, f32to64 (f32 a) = f64 b := by
  cases hd : f32 a with
  | nan => exact absurd hd h
  | inf neg => exact inf_encoded64 neg
  | fin neg m e => exact round64_encoded

/-- Settles O59: a result that is no NaN has an encoding, which is what is written; multiplying by
one changes no datum, and narrowing undoes the widening. -/
theorem scaledFloatEncodesTheRoundedProduct : Obligations.ScaledFloatEncodesTheRoundedProduct := by
  refine ⟨fun raw scale free => ⟨fun h => ?number32, fun h => scaleF32_of_nan h free,
      fun h => ?one32⟩,
    fun raw scale free => ⟨fun h => ?number64, fun h => scaleF64_of_nan h free,
      fun h => ?one64⟩⟩
  case number32 =>
    obtain ⟨b, hb⟩ := f64to32_encoded h
    have hbits free' : scaleF32 raw scale free' = b := by
      rw [scaleF32, hb, bits32_f32 b free' (hb ▸ h)]
    exact ⟨by rw [hbits, hb], fun free' => by rw [hbits, hbits]⟩
  case one32 =>
    obtain ⟨b, hb⟩ := f32to64_encoded h
    rw [scaleF32, hb, fmul64_one, ← hb, f64to32_f32to64, bits32_f32 raw free h]
  case number64 =>
    obtain ⟨b, hb⟩ := fmul64_encoded h
    have hbits free' : scaleF64 raw scale free' = b := by
      rw [scaleF64, hb, bits64_f64 b free' (hb ▸ h)]
    exact ⟨by rw [hbits, hb], fun free' => by rw [hbits, hbits]⟩
  case one64 => rw [scaleF64, fmul64_one, bits64_f64 raw free h]

end Sys2Proof.Machine
end

section
/-! PROOFS. The integer narrowing (45_scaling_numerics.md R140 to R146): wrapping, products that are
no number, and what SCALE = 1.0 and zero give. -/

namespace Sys2Proof.Machine

/-! Wrapping (45_scaling_numerics.md R144). -/

/-- `wrap` is the library's vector of an integer. -/
theorem wrap_eq_ofInt (n : Nat) (t : Int) : wrap n t = BitVec.ofInt n t := by
  apply BitVec.eq_of_toNat_eq
  have hpos : (0 : Int) < 2 ^ n := by positivity
  have hlt := Int.emod_lt_of_pos t hpos
  have hnonneg := Int.emod_nonneg t hpos.ne'
  rw [wrap, BitVec.toNat_ofNat, BitVec.toNat_ofInt, Nat.mod_eq_of_lt]
  · push_cast
    rfl
  · zify
    rwa [Int.toNat_of_nonneg hnonneg]

theorem wrap_toNat (n : Nat) (t : Int) : ((wrap n t).toNat : Int) = t % 2 ^ n := by
  rw [wrap_eq_ofInt, BitVec.toNat_ofInt, Int.toNat_of_nonneg (Int.emod_nonneg _ (by positivity))]
  push_cast
  rfl

/-- Settles O52: `wrap` is the library's `BitVec.ofInt`, and in range both readings give the integer
back. -/
theorem wrapIsReductionModuloTwoToTheN : Obligations.WrapIsReductionModuloTwoToTheN := by
  refine ⟨fun n t => ⟨wrap_toNat n t, fun hlo hhi => ?_⟩, fun n t hlo hhi => ?_⟩
  · rw [wrap_toNat, Int.emod_eq_of_lt hlo hhi]
  · rw [sint_eq_toInt, wrap_eq_ofInt, BitVec.toInt_ofInt_eq_self n.succ_pos hlo hhi]

theorem wrap_uint {n : Nat} (b : BitVec n) : wrap n (uint b) = b := by
  rw [wrap_eq_ofInt, uint, BitVec.ofInt_natCast, BitVec.ofNat_toNat, BitVec.setWidth_eq]

theorem wrap_sint {n : Nat} (b : BitVec n) : wrap n (sint b) = b := by
  rw [wrap_eq_ofInt, sint_eq_toInt, BitVec.ofInt_toInt]

theorem wrap_eq_zero_of_dvd {n : Nat} {t : Int} (h : (2 : Int) ^ n ∣ t) : wrap n t = 0#n := by
  apply BitVec.eq_of_toNat_eq
  zify
  rw [wrap_toNat, Int.emod_eq_zero_of_dvd h, BitVec.toNat_zero, Nat.cast_zero]

/-! The product as a datum. -/

/-- A product that is a number is truncated and wrapped. -/
theorem scaleInt_of_isFinite {v : Int} {scale : BitVec 64}
    (h : (scaledProduct v scale).isFinite = true) (n : Nat) (free : BitVec 64) :
    scaleInt n v scale free = wrap n (truncToInt (scaledProduct v scale).value) := by
  obtain ⟨m, e, hp⟩ := Datum.eq_fin_of_isFinite h
  rw [scaleInt_number hp, truncationDiscardsTheFraction, ← hp]

/-- Settles O54: the two kinds of product, each by its lemma. -/
theorem scaleIntTruncatesAndWrapsTheProduct : Obligations.ScaleIntTruncatesAndWrapsTheProduct := by
  refine fun n v scale free => ⟨fun h => ?_, scaleInt_nonfinite⟩
  rw [scaleInt_of_isFinite h, wrap_toNat, scaledProduct]

/-- The significand of a datum of the format has no more bits than the format keeps. -/
theorem Format.significand_lt {F : Format} {bits : Nat} {neg : Bool} {m : Nat} {e : Int}
    (h : F.datum bits = .fin neg m e) : m < 2 ^ (F.fracWidth + 1) := by
  have hlt : bits % 2 ^ F.fracWidth < 2 ^ F.fracWidth := Nat.mod_lt _ (by positivity)
  simp only [Format.datum] at h
  rw [pow_succ]
  split_ifs at h <;> cases h <;> omega

/-- A product that is no NaN has an encoding. -/
theorem scaledProduct_encoded {v : Int} {scale : BitVec 64} (h : scaledProduct v scale ≠ .nan) :
    ∃ c, scaledProduct v scale = f64 c :=
  fmul64_encoded h

/-- A finite product of magnitude `2 ^ (52 + n)` or more is an integer multiple of `2 ^ n`: its
significand has only 53 bits. -/
theorem le_exponent_of_huge {m : Nat} {e : Int} {n : Nat} (hm : m < 2 ^ 53)
    (h : (2 : ℚ) ^ (52 + n) ≤ m * 2 ^ e) : (n : Int) ≤ e := by
  by_contra hlt
  have hmq : (m : ℚ) < 2 ^ 53 := by exact_mod_cast hm
  have hsmall : (m : ℚ) * 2 ^ e < 2 ^ (52 + n) :=
    calc (m : ℚ) * 2 ^ e < 2 ^ 53 * 2 ^ e := by gcongr
      _ = 2 ^ (53 + e) := by rw [zpow_add₀ two_ne_zero]; rfl
      _ ≤ 2 ^ ((52 + n : Nat) : Int) := zpow_le_zpow_right₀ one_le_two (by push_cast; omega)
      _ = 2 ^ (52 + n) := zpow_natCast _ _
  exact absurd h (not_le.2 hsmall)

theorem two_pow_dvd_trunc {neg : Bool} {m : Nat} {e : Int} {n : Nat} (h : (n : Int) ≤ e) :
    (2 : Int) ^ n ∣ trunc neg m e := by
  have he : 0 ≤ e := n.cast_nonneg.trans h
  have hdvd : (2 : Int) ^ n ∣ ((m * 2 ^ e.toNat : Nat) : Int) := by
    push_cast
    exact Dvd.dvd.mul_left (pow_dvd_pow 2 (by omega)) _
  simp only [trunc, if_pos he]
  cases neg with
  | false => exact hdvd
  | true => exact (Int.dvd_neg).2 hdvd

/-- Settles O53: with at most 53 bits of significand, a product so large has all its low `N` bits
zero. -/
theorem hugeProductsWrapToZero : Obligations.HugeProductsWrapToZero := by
  intro n v scale free hfin hhuge
  obtain ⟨m, e, hp⟩ := Datum.eq_fin_of_isFinite hfin
  obtain ⟨c, hc⟩ := scaledProduct_encoded (v := v) (scale := scale) (by rw [hp]; nofun)
  have hm : m < 2 ^ 53 := Format.significand_lt (hc.symm.trans hp)
  rw [hp, Datum.abs_value] at hhuge
  rw [scaleInt_number hp]
  exact wrap_eq_zero_of_dvd (two_pow_dvd_trunc (le_exponent_of_huge hm hhuge))

/-! When the product is no number (45_scaling_numerics.md R145). -/

theorem i2f64_isFinite {v : Int} (hv : v.natAbs ≤ 2 ^ 64) : (i2f64 v).isFinite = true :=
  (Format.round_isFinite sound64 _ _ _).2 (natAbs_lt_overflow64 hv)

/-- The product of two numbers is a number exactly below the overflow bound. -/
theorem fmul64_isFinite_iff {a b : Datum} (ha : a.isFinite = true) (hb : b.isFinite = true) :
    (fmul64 a b).isFinite = true ↔ |a.value * b.value| < binary64.overflow := by
  obtain ⟨m, e, hround, hx⟩ := fmul64_eq_round ha hb
  rw [hround, hx, Format.round_isFinite sound64]

/-- Rounding goes no further than a magnitude of the format that is not exceeded. -/
theorem Format.round_abs_le {F : Format} (hF : F.Sound) (neg : Bool) {m n : Nat} {e k : Int}
    (hn : n < 2 ^ (F.fracWidth + 1)) (hk : F.minExp ≤ k) (hlt : (n : ℚ) * 2 ^ k < F.overflow)
    (hx : (m : ℚ) * 2 ^ e ≤ n * 2 ^ k) : |(F.round neg m e).value| ≤ n * 2 ^ k := by
  obtain ⟨c, hc, hmag⟩ := F.exists_magnitude hF hn hk hlt
  have hover := hx.trans_lt hlt
  obtain ⟨i, j, hround, hij⟩ := F.round_finite hF neg hover
  rw [hround, Datum.abs_value, hij]
  by_cases hm : m = 0
  · have hzero : F.roundBits m e = 0 := if_pos hm
    rw [hzero, F.magnitude_zero hF]
    positivity
  · obtain ⟨hnear, -⟩ := F.roundBits_nearest hF hm e ((F.roundBits_lt_iff hF m e).2 hover) hc
    rw [hmag, abs_of_nonneg (sub_nonneg.2 hx)] at hnear
    linarith [le_abs_self (F.magnitude (F.roundBits m e) - m * 2 ^ e)]

/-- The conversion of an integer of magnitude up to 2^64 stays there. -/
theorem abs_i2f64_value_le {v : Int} (hv : v.natAbs ≤ 2 ^ 64) : |(i2f64 v).value| ≤ 2 ^ 64 := by
  have hq : (v.natAbs : ℚ) * 2 ^ (0 : Int) ≤ (1 : Nat) * 2 ^ (64 : Int) := by
    rw [zpow_zero, mul_one, Nat.cast_one, one_mul]
    exact_mod_cast hv
  have hover : ((1 : Nat) : ℚ) * 2 ^ (64 : Int) < binary64.overflow :=
    lt_overflow64_of_le (by norm_num)
  have hle := Format.round_abs_le sound64 (decide (v < 0)) (by decide) (by decide) hover hq
  rw [i2f64]
  exact hle.trans (by norm_num)

/-- A magnitude of `p` significant bits that is below a power of two is at most the largest one of
`p` bits there. -/
theorem le_pred_of_lt_two_zpow {m p : Nat} {e j : Int} (hm : m < 2 ^ p)
    (h : (m : ℚ) * 2 ^ e < 2 ^ p * 2 ^ j) : (m : ℚ) * 2 ^ e ≤ (2 ^ p - 1) * 2 ^ j := by
  have hpred {k : Nat} (hk : (k : ℚ) < 2 ^ p) : (k : ℚ) ≤ 2 ^ p - 1 := by
    have hnat : k + 1 ≤ 2 ^ p := by exact_mod_cast hk
    have hrat : (k : ℚ) + 1 ≤ 2 ^ p := by exact_mod_cast hnat
    linarith
  have hj : (0 : ℚ) < 2 ^ j := by positivity
  rcases le_total e j with he | he
  · have hpow : (2 : ℚ) ^ e ≤ 2 ^ j := zpow_le_zpow_right₀ one_le_two he
    have hle := hpred (by exact_mod_cast hm)
    calc (m : ℚ) * 2 ^ e ≤ m * 2 ^ j := by gcongr
      _ ≤ (2 ^ p - 1) * 2 ^ j := by gcongr
  · obtain ⟨i, rfl⟩ := Int.le.dest he
    have hsplit : (m : ℚ) * 2 ^ (j + (i : Int)) = ((m * 2 ^ i : Nat) : ℚ) * 2 ^ j := by
      rw [zpow_add₀ two_ne_zero, zpow_natCast]
      push_cast
      ring
    rw [hsplit] at h ⊢
    exact mul_le_mul_of_nonneg_right (hpred (lt_of_mul_lt_mul_right h hj.le)) hj.le

/-- With a SCALE below 2^960 the product of an integer command stays below the overflow bound: the
53 bits of SCALE keep it one last place away from 2^1024. -/
theorem product_lt_overflow64 {v : Int} {scale : BitVec 64} (hv : v.natAbs ≤ 2 ^ 64)
    (hs : (f64 scale).isFinite = true) (h : |(f64 scale).value| < 2 ^ 960) :
    |(i2f64 v).value * (f64 scale).value| < binary64.overflow := by
  have hle : |(f64 scale).value| ≤ (2 ^ 53 - 1) * 2 ^ (907 : Int) := by
    obtain ⟨m, e, hd⟩ := Datum.eq_fin_of_isFinite hs
    rw [hd, Datum.abs_value] at h ⊢
    have hsplit : (2 : ℚ) ^ 960 = 2 ^ 53 * 2 ^ (907 : Int) := by
      rw [← zpow_natCast, ← zpow_natCast, ← zpow_add₀ two_ne_zero]
      rfl
    exact le_pred_of_lt_two_zpow (Format.significand_lt hd) (hsplit ▸ h)
  have hpow : (2 : ℚ) ^ 970 = 2 ^ 63 * 2 ^ (907 : Int) := by
    rw [← zpow_natCast, ← zpow_natCast, ← zpow_add₀ two_ne_zero]
    rfl
  have hpos : (0 : ℚ) < 2 ^ (907 : Int) := by positivity
  rw [abs_mul, overflow64, hpow]
  generalize (2 : ℚ) ^ (907 : Int) = y at hle hpos ⊢
  calc |(i2f64 v).value| * |(f64 scale).value|
      ≤ 2 ^ 64 * ((2 ^ 53 - 1) * y) :=
        mul_le_mul (abs_i2f64_value_le hv) hle (abs_nonneg _) (by positivity)
    _ < (2 ^ 54 - 1) * (2 ^ 63 * y) := by linarith

/-- Settles O55: the conversion is finite, so SCALE and the overflow bound decide; the free value is
cut to the width. -/
theorem nonfiniteProductHappensExactlyWhen : Obligations.NonfiniteProductHappensExactlyWhen := by
  intro v scale hv
  have hfin := i2f64_isFinite hv
  refine ⟨?iff, fun hs hsmall => ?small, fun h n b hn => ⟨b.setWidth 64, ?free⟩⟩
  case iff =>
    obtain ⟨m, e, hi⟩ := Datum.eq_fin_of_isFinite hfin
    generalize (i2f64 v).negative = neg at hi
    cases hd : f64 scale with
    | nan => simp [scaledProduct, hd, hi, fmul64, Datum.isFinite]
    | inf k =>
      simp only [scaledProduct, hd, hi, fmul64]
      split <;> simp [Datum.isFinite]
    | fin _ k l =>
      rw [← Bool.not_eq_true, scaledProduct, hd, fmul64_isFinite_iff hfin rfl, not_lt]
      simp [Datum.isFinite]
  case small => exact (fmul64_isFinite_iff hfin hs).2 (product_lt_overflow64 hv hs hsmall)
  case free => rw [scaleInt_nonfinite h, BitVec.setWidth_setWidth_of_le _ hn, BitVec.setWidth_eq]

/-! SCALE = 1.0 (45_scaling_numerics.md R146). -/

theorem scaledProduct_one (v : Int) : scaledProduct v 0x3FF0000000000000#64 = i2f64 v := by
  obtain ⟨b, hb⟩ : ∃ b, i2f64 v = f64 b := round64_encoded
  rw [scaledProduct, hb, fmul64_one]

/-- With SCALE = 1.0 the result is the converted integer, wrapped, whatever integer that is. -/
theorem scaleInt_one {v t : Int} (hv : v.natAbs ≤ 2 ^ 64) (h : (i2f64 v).value = t) (n : Nat)
    (free : BitVec 64) : scaleInt n v 0x3FF0000000000000#64 free = wrap n t := by
  have htrunc : truncToInt (t : ℚ) = t := by simp [truncToInt]
  rw [scaleInt_of_isFinite (by rw [scaledProduct_one]; exact i2f64_isFinite hv), scaledProduct_one,
    h, htrunc]

theorem natAbs_uint_le {n : Nat} (b : BitVec n) : (uint b).natAbs ≤ 2 ^ n := b.isLt.le

theorem natAbs_sint_le {n : Nat} (b : BitVec n) : (sint b).natAbs ≤ 2 ^ n := by
  have hlt := b.isLt
  have hcast : ((2 ^ n : Nat) : Int) = 2 ^ n := by push_cast; rfl
  unfold sint
  split <;> omega

/-- An integer of at most 32 bits is converted exactly. -/
theorem scaleInt_one_of_narrow {n : Nat} (hn : n ≤ 32) {v : Int} (hv : v.natAbs ≤ 2 ^ n)
    (free : BitVec 64) : scaleInt n v 0x3FF0000000000000#64 free = wrap n v := by
  have h32 : v.natAbs ≤ 2 ^ 32 := hv.trans (Nat.pow_le_pow_right (by decide) hn)
  have h64 : v.natAbs ≤ 2 ^ 64 := h32.trans (by decide)
  have h53 : v.natAbs < 2 ^ 53 := h32.trans_lt (by decide)
  exact scaleInt_one h64 (i2f64_value_exact h64 h53 (k := 0) (by simp)) n free

theorem scaleInt_one_narrow {n : Nat} (hn : n ≤ 32) (b : BitVec n) (free : BitVec 64) :
    scaleInt n (uint b) 0x3FF0000000000000#64 free = b ∧
      scaleInt n (sint b) 0x3FF0000000000000#64 free = b := by
  rw [scaleInt_one_of_narrow hn (natAbs_uint_le b), scaleInt_one_of_narrow hn (natAbs_sint_le b)]
  exact ⟨wrap_uint b, wrap_sint b⟩

/-- Settles O56: the conversion is exact up to 53 significant bits, the product with one changes
nothing, and wrapping undoes both readings. -/
theorem scaleOneIsTheIdentityWithin53Bits : Obligations.ScaleOneIsTheIdentityWithin53Bits := by
  refine fun free => ⟨fun b => scaleInt_one_narrow (by decide) b free,
    fun b => scaleInt_one_narrow (by decide) b free,
    fun b => scaleInt_one_narrow (by decide) b free, fun b m k hm => ⟨fun h => ?_, fun h => ?_⟩⟩
  · have hv := natAbs_uint_le b
    rw [scaleInt_one hv (i2f64_value_exact hv hm h), wrap_uint]
  · have hv := natAbs_sint_le b
    rw [scaleInt_one hv (i2f64_value_exact hv hm h), wrap_sint]

/-- The value of a finite rounding: the rounded significand at the last place kept. -/
theorem Format.round_value {F : Format} (hF : F.Sound) (neg : Bool) {m : Nat} (hm : m ≠ 0) {e : Int}
    (h : (m : ℚ) * 2 ^ e < F.overflow) : (F.round neg m e).value =
      (if neg then -1 else 1) * (roundAt m e (F.lastPlace m e) * 2 ^ F.lastPlace m e) := by
  have hlt := (F.roundBits_lt_iff hF m e).2 h
  obtain ⟨j, l, hround, hmag⟩ := F.round_finite hF neg h
  obtain ⟨k, n, hlast, hn, hplaces, -⟩ := F.roundBits_places hm e hlt
  rw [hround, Datum.value_fin, hmag, F.magnitude_of_places hF hlt hplaces, hlast, ← hn, hlast]

/-- From half-way above an odd quotient on, rounding goes up. -/
theorem roundShift_up {m sh q : Nat} (hodd : q % 2 = 1) (hlo : (2 * q + 1) * 2 ^ sh ≤ 2 * m)
    (hhi : m < (q + 1) * 2 ^ sh) : roundShift m sh = q + 1 := by
  have hdiv : m / 2 ^ sh = q := by
    refine Nat.div_eq_of_lt_le ?_ hhi
    rw [Nat.add_mul, Nat.mul_assoc] at hlo
    omega
  have hmod := Nat.div_add_mod m (2 ^ sh)
  rw [hdiv, Nat.mul_comm] at hmod
  rw [Nat.add_mul, Nat.mul_assoc] at hlo
  simp only [roundShift, hdiv]
  rw [if_pos (by omega)]

/-- The integers from half a last place below a power of two on convert to the power of two: the
quotient they leave is odd. -/
theorem i2f64_value_rounds_up {m j : Nat} (hj : j ≤ 10) (hlo : (2 ^ 54 - 1) * 2 ^ j ≤ m)
    (hhi : m < 2 ^ (j + 54)) : (i2f64 m).value = 2 ^ (j + 54) := by
  have htop : 2 ^ (j + 54) = 2 ^ 54 * 2 ^ j := by rw [pow_add, Nat.mul_comm]
  have hlead : 2 ^ (j + 53) = 2 ^ 53 * 2 ^ j := by rw [pow_add, Nat.mul_comm]
  have hshift : 2 ^ (j + 1) = 2 * 2 ^ j := by rw [pow_succ, Nat.mul_comm]
  have hpos : 0 < 2 ^ j := Nat.two_pow_pos j
  have hm : m ≠ 0 := by omega
  have h64 : m ≤ 2 ^ 64 := hhi.le.trans (Nat.pow_le_pow_right (by decide) (by omega))
  have hplace : binary64.lastPlace m 0 = (j + 1 : Nat) := by
    rw [lastPlace64_of_leadingBit (k := j + 53) (by omega) (by omega)]
    omega
  have hround : roundAt m 0 (j + 1 : Nat) = 2 ^ 53 := by
    rw [roundAt, if_neg (by omega), sub_zero, Int.toNat_natCast]
    exact roundShift_up (m := m) (sh := j + 1) (q := 2 ^ 53 - 1) (by decide) (by omega) (by omega)
  have hover : (m : ℚ) * 2 ^ (0 : Int) < binary64.overflow := natAbs_lt_overflow64 (v := m) h64
  have hneg : decide ((m : Int) < 0) = false := by simp
  rw [i2f64, hneg, Int.natAbs_natCast, Format.round_value sound64 false hm hover, hplace, hround,
    zpow_natCast]
  push_cast
  ring

/-- Settles O57: both ranges begin half a last place below a power of two, and 2^53 + 1 is a tie
that goes to the even neighbour. -/
theorem scaleOnePrecisionCorners : Obligations.ScaleOnePrecisionCorners := by
  refine fun b free => ⟨fun hlo => ?unsigned, fun hlo hhi => ?signed, ?tie⟩
  case unsigned =>
    have hvalue : (i2f64 (uint b)).value = ((2 ^ 64 : Int) : ℚ) := by
      rw [uint, i2f64_value_rounds_up (j := 10) le_rfl hlo b.isLt]
      norm_num
    rw [scaleInt_one (natAbs_uint_le b) hvalue]
    rfl
  case signed =>
    have hread : sint b = b.toNat := by
      rw [sint, BitVec.msb_eq_decide, decide_eq_false (by omega), if_neg Bool.false_ne_true]
    have hvalue : (i2f64 (sint b)).value = ((2 ^ 63 : Int) : ℚ) := by
      rw [hread, i2f64_value_rounds_up (j := 9) (by decide) hlo (by omega)]
      norm_num
    rw [scaleInt_one (natAbs_sint_le b) hvalue]
    rfl
  case tie =>
    have hvalue : (i2f64 (2 ^ 53 + 1)).value = ((2 ^ 53 : Int) : ℚ) := by
      rw [show i2f64 (2 ^ 53 + 1) = i2f64 (2 ^ 53) by decide, i2f64_two_pow_value (by decide)]
      norm_num
    rw [scaleInt_one (by decide) hvalue]
    rfl

/-! Zero (45_scaling_numerics.md section 4). -/

/-- A product of two numbers one of which is zero is a zero. -/
theorem fmul64_zero {a b : Datum} (ha : a.isFinite = true) (hb : b.isFinite = true)
    (h : a.value * b.value = 0) :
    (fmul64 a b).isFinite = true ∧ (fmul64 a b).value = 0 := by
  have hpos := Format.overflow_pos sound64
  refine ⟨(fmul64_isFinite_iff ha hb).2 (by rwa [h, abs_zero]), ?_⟩
  obtain ⟨m, e, hround, hx⟩ := fmul64_eq_round ha hb
  have hm : (m : ℚ) * 2 ^ e = (0 : Nat) * 2 ^ binary64.minExp := by rw [← hx, h]; simp
  rw [hround, Format.round_exact sound64 _ (by decide) le_rfl (by simpa using hpos) hm]
  simp

/-- A zero product leaves zero. -/
theorem scaleInt_of_zero {v : Int} {scale : BitVec 64} (hv : (i2f64 v).isFinite = true)
    (hs : (f64 scale).isFinite = true) (h : (i2f64 v).value * (f64 scale).value = 0) (n : Nat)
    (free : BitVec 64) : scaleInt n v scale free = 0#n := by
  obtain ⟨hfin, hzero⟩ := fmul64_zero hv hs h
  rw [scaleInt_of_isFinite hfin, scaledProduct, hzero]
  exact wrap_eq_zero_of_dvd (by simp [truncToInt])

/-- Settles O58: zero converts to zero, and both zero encodings of SCALE denote zero. -/
theorem zeroLawsOfScaling : Obligations.ZeroLawsOfScaling := by
  refine fun n scale free => ⟨fun hs => ?_, fun v hv => ⟨?_, ?_⟩⟩
  · have hzero : (i2f64 0).value = (0 : Int) :=
      i2f64_value_exact (m := 0) (k := 0) (by decide) (by decide) rfl
    exact scaleInt_of_zero (i2f64_isFinite (by decide)) hs (by simp [hzero]) n free
  · exact scaleInt_of_zero (i2f64_isFinite hv) (by decide)
      (by rw [show f64 0x0000000000000000#64 = .fin false 0 (-1074) by decide]; simp [Datum.value])
      n free
  · exact scaleInt_of_zero (i2f64_isFinite hv) (by decide)
      (by rw [show f64 0x8000000000000000#64 = .fin true 0 (-1074) by decide]; simp [Datum.value])
      n free

end Sys2Proof.Machine
end
